-- ==== Sys2Proof/Word.lean ====
section
/-! DEFINITION. The words of the BPBS: the widths the spec gives to operands, planes and opcodes,
and the words presented together on the command port. -/

namespace Sys2Proof

/-- A 32-bit operand port value or state word (00_scope.md R8: u32; read as s32 where R52 says so). -/
abbrev Word32 := BitVec 32

/-- One bit-plane of one block: 64 bits, one a pixel (10_state.md R16). Also the width of operand `D` and of
RESULT (30_encoding.md R50). -/
abbrev Plane := BitVec 64

/-- A 32-bit channel-packed pixel value (41_pixel_codec.md R72). -/
abbrev Color := BitVec 32

/-- The opcode field `OP` of the command word (30_encoding.md R51). -/
abbrev Opcode := BitVec 8

/-- One command as the host presents it: the command word and the four operand values together
(30_encoding.md R49, R50). -/
structure Command where
  /-- `CMD`, 32 bits. -/
  cmd : Word32
  /-- `A`: width, x, or block x. -/
  a : Word32
  /-- `B`: height, y, or block y. -/
  b : Word32
  /-- `C`: color or depth. -/
  c : Word32
  /-- `D`: plane word. -/
  d : Plane
  deriving DecidableEq, Repr

end Sys2Proof
end

