-- ==== Sys2Proof/Syntax.lean ====
section
/-! DEFINITION. The thirteen commands of the opcode map, one constructor per row of spec/opcode_table.json
(30_encoding.md R54). -/

namespace Sys2Proof

/-- A command with the operands it uses, each whole from its port (30_encoding.md R52). An ignored port is no operand.
The ports' widths are in the types, so every term is a command the host can issue. -/
inductive Instr where
  /-- CONFIG W, H: construct the grid (40_grid.md R65). -/
  | config (width height : Word32)
  /-- INRANGE X, Y: test a pixel coordinate (40_grid.md R67). -/
  | inrange (x y : Word32)
  /-- GETBW: read blockWidth (40_grid.md R68). -/
  | getbw
  /-- GETBH: read blockHeight (40_grid.md R69). -/
  | getbh
  /-- SETCOLOR X, Y, COLOR: write one pixel (41_pixel_codec.md R76). -/
  | setcolor (x y : Word32) (color : Color)
  /-- GETCOLOR X, Y: read one pixel (41_pixel_codec.md R77). -/
  | getcolor (x y : Word32)
  /-- GETPLANE BX, BY, DEPTH: read one bit-plane (42_bitplane.md R81). -/
  | getplane (blockX blockY depth : Word32)
  /-- SETPLANE BX, BY, DEPTH, PLANE: write one bit-plane (42_bitplane.md R82). -/
  | setplane (blockX blockY depth : Word32) (plane : Plane)
  /-- TOCGC: convert the whole grid from PBC to CGC (43_code_transform.md R87). -/
  | tocgc
  /-- TOPBC: convert the whole grid from CGC to PBC (43_code_transform.md R89). -/
  | topbc
  /-- RDSTAT: read the status view (44_status.md R96). -/
  | rdstat
  /-- CLRERR: clear the sticky error record (44_status.md R97). -/
  | clrerr
  /-- GETCAP: read the storage capacity (40_grid.md R70). -/
  | getcap
  deriving DecidableEq, Repr

end Sys2Proof
end

