-- ==== Sys2Proof/WellFormed.lean ====
section
/-! DEFINITION. What the host may present and what the assembler may accept. A term of `Instr` needs no check of its
own: its operands have their ports' widths (30_encoding.md R52). A command word and an assembler literal do. -/

namespace Sys2Proof

/-- The `RSVD` field, bits 31:8 of the command word, is zero (30_encoding.md R51). -/
def Command.reservedClear (c : Command) : Bool := c.cmd.extractLsb' 8 24 == 0#24

/-- `OP` is one of the thirteen opcodes 0x01 to 0x0D (30_encoding.md R54, R56). -/
def Command.opcodeAssigned (c : Command) : Bool :=
  0x01#8 ≤ c.cmd.extractLsb' 0 8 && c.cmd.extractLsb' 0 8 ≤ 0x0D#8

/-- "A command word is legal only when `OP` is one of the thirteen values of rule R54 and `RSVD = 0`"
(30_encoding.md R51). -/
def Command.wellFormed (c : Command) : Bool := c.reservedClear && c.opcodeAssigned

/-- A literal a 32-bit operand takes: any integer in `[-2^31, 2^32)` (30_encoding.md R59). -/
def Literal.fits32 (n : Int) : Bool := -(2 ^ 31) ≤ n && n < 2 ^ 32

/-- A literal the 64-bit operand takes: any integer in `[0, 2^64)` (30_encoding.md R59). -/
def Literal.fits64 (n : Int) : Bool := 0 ≤ n && n < 2 ^ 64

end Sys2Proof
end

