-- ==== Sys2Proof/Decode.lean ====
section
/-! DEFINITION. The decoder of 30_encoding.md R55, total on every command the port can carry, and the encoder written
from the same map (R54). -/

namespace Sys2Proof

/-- Why a command word is illegal (30_encoding.md R55). Both are answered with `E_ILLEGAL`. -/
inductive DecodeError where
  /-- `RSVD`, bits 31:8, is not zero. -/
  | reservedBits
  /-- `OP` is 0x00 or in 0x0E to 0xFF. -/
  | unassignedOpcode
  deriving DecidableEq, Repr

/-- Bits 7:0 of the command word (30_encoding.md R51). -/
def Command.op (c : Command) : Opcode := c.cmd.extractLsb' 0 8

/-- The opcode map with the operand assembly of R52: each opcode takes the ports it uses, and ignores the rest. -/
def Command.select (c : Command) : (op : Nat) → Except DecodeError Instr
  | 0x01 => .ok (.config c.a c.b)
  | 0x02 => .ok (.inrange c.a c.b)
  | 0x03 => .ok .getbw
  | 0x04 => .ok .getbh
  | 0x05 => .ok (.setcolor c.a c.b c.c)
  | 0x06 => .ok (.getcolor c.a c.b)
  | 0x07 => .ok (.getplane c.a c.b c.c)
  | 0x08 => .ok (.setplane c.a c.b c.c c.d)
  | 0x09 => .ok .tocgc
  | 0x0A => .ok .topbc
  | 0x0B => .ok .rdstat
  | 0x0C => .ok .clrerr
  | 0x0D => .ok .getcap
  | _ => .error .unassignedOpcode

/-- The unit's decoder: reserved bits first, then the opcode (30_encoding.md R55). -/
def decode (c : Command) : Except DecodeError Instr :=
  if c.reservedClear then c.select c.op.toNat else .error .reservedBits

/-- The opcode of a command (30_encoding.md R54). -/
def Instr.opcode : Instr → Opcode
  | .config _ _ => 0x01
  | .inrange _ _ => 0x02
  | .getbw => 0x03
  | .getbh => 0x04
  | .setcolor _ _ _ => 0x05
  | .getcolor _ _ => 0x06
  | .getplane _ _ _ => 0x07
  | .setplane _ _ _ _ => 0x08
  | .tocgc => 0x09
  | .topbc => 0x0A
  | .rdstat => 0x0B
  | .clrerr => 0x0C
  | .getcap => 0x0D

/-- The command word: `OP` in bits 7:0 with `RSVD = 0` (30_encoding.md R51, R54). -/
def Instr.word (i : Instr) : Word32 := i.opcode.zeroExtend 32

/-- A command as the assembler lays it out: the operands used in their ports, each ignored port 0
(30_encoding.md R52, R58). -/
def encode (i : Instr) : Command :=
  match i with
  | .config w h => ⟨i.word, w, h, 0, 0⟩
  | .inrange x y => ⟨i.word, x, y, 0, 0⟩
  | .getbw => ⟨i.word, 0, 0, 0, 0⟩
  | .getbh => ⟨i.word, 0, 0, 0, 0⟩
  | .setcolor x y color => ⟨i.word, x, y, color, 0⟩
  | .getcolor x y => ⟨i.word, x, y, 0, 0⟩
  | .getplane bx byy depth => ⟨i.word, bx, byy, depth, 0⟩
  | .setplane bx byy depth plane => ⟨i.word, bx, byy, depth, plane⟩
  | .tocgc => ⟨i.word, 0, 0, 0, 0⟩
  | .topbc => ⟨i.word, 0, 0, 0, 0⟩
  | .rdstat => ⟨i.word, 0, 0, 0, 0⟩
  | .clrerr => ⟨i.word, 0, 0, 0, 0⟩
  | .getcap => ⟨i.word, 0, 0, 0, 0⟩

/-- A command from its bits in the numbering of spec/opcode_table.json: `CMD` in bits 31:0, and the operand ports,
which the table gives no bits, above it in the order A, B, C, D. Log entry 9. -/
def Command.ofBits (w : Nat) : Command where
  cmd := BitVec.ofNat 32 w
  a := BitVec.ofNat 32 (w / 2 ^ 32)
  b := BitVec.ofNat 32 (w / 2 ^ 64)
  c := BitVec.ofNat 32 (w / 2 ^ 96)
  d := BitVec.ofNat 64 (w / 2 ^ 128)

/-- The command whose lowest `nbits` bits are those of `w` and whose other bits are 0. -/
def Command.ofTableWord (nbits w : Nat) : Command := Command.ofBits (w % 2 ^ nbits)

/-- What the decoder reads from a table word (the host's fixed name). -/
def decodeTableWord (nbits w : Nat) : Option Instr := (decode (Command.ofTableWord nbits w)).toOption

end Sys2Proof
end

