-- ==== Sys2Proof/Config.lean ====
section
/-! DEFINITION. The constants the source fixes (00_scope.md R6), the parameters it leaves open (R7) and the values
the spec leaves unspecified on the response port (93_implementation_defined.md I8). Open values have no body: no
proof can learn them. -/

namespace Sys2Proof.Config

/-- `S`, the side of a block in pixels (00_scope.md R6). -/
abbrev side : Nat := 8

/-- `NPLANES`, bit-planes per block (R6). -/
abbrev nplanes : Nat := 32

/-- `PLANE_BITS`, bits per plane, `S*S` (R6). -/
abbrev planeBits : Nat := 64

/-- `NCH`, channels per pixel (R6). -/
abbrev nch : Nat := 4

/-- `CHB`, bits per channel (R6). -/
abbrev chb : Nat := 8

/-- `COLOR_BITS`, width of a pixel value, `NCH*CHB` (R6). -/
abbrev colorBits : Nat := 32

/-- `NBLK_MAX - 1`, left open by the source (R7, 92_eei_decisions.md D7): any value with `1 <= NBLK_MAX <= 2^32 - 1`.
Free value, no body. Log entry 1. -/
opaque nblkMaxPred : Fin 4294967295

/-- `NBLK_MAX`, the most blocks the storage holds (R7). It enters the machine in `State.reset` only. Log entry 1. -/
def nblkMax : Word32 := BitVec.ofNat 32 (nblkMaxPred.val + 1)

/-- `LAT(op) - 1` of the ten opcodes whose latency is one integer each (R7). Free value, no body. `latency` of
`Machine/Port.lean` reads it and the two below. Log entry 8. -/
opaque latencyPred : Opcode → Nat

/-- `LAT(op) - 1` of CONFIG, TOCGC and TOPBC, whose latency may grow with the block count (R7, 70_reset_and_hazards.md
R125). Free value, no body. Log entry 8. -/
opaque gridLatencyPred : Opcode → Nat → Nat

/-- One less than the latency of a word that is no command: R7 gives it none, R123 answers it (60_exceptions.md R101).
Free value, no body. Log entry 8. -/
opaque illegalLatencyPred : Word32 → Nat

/-- What `rsp_status` carries in a cycle that is no response cycle: unspecified (R123, I8). Free value, no body,
applied to the cycle's number. Log entry 8. -/
opaque idleStatus : Nat → BitVec 4

/-- What `rsp_result` carries in a cycle that is no response cycle: unspecified (R123, I8). Log entry 8. -/
opaque idleResult : Nat → BitVec 64

end Sys2Proof.Config
end

