-- ==== Sys2Proof/Machine/State.lean ====
section
/-! DEFINITION. The state of the BPBS (10_state.md), the responses it gives, what the host can present to it, and the
state right after reset. -/

namespace Sys2Proof.Machine

/-- The coding mode (10_state.md R19): `MODE = 0` is PBC, `MODE = 1` is CGC. -/
inductive CodingMode where
  | pbc
  | cgc
  deriving DecidableEq, Repr

/-- The reasons a command is rejected, in the order of their codes 1 to 7 (60_exceptions.md R101). -/
inductive Rejection where
  /-- `E_ILLEGAL`, 1: the command word is not in the opcode map. -/
  | illegal
  /-- `E_STATE`, 2: a grid command with no grid, or CONFIG with one. -/
  | state
  /-- `E_DIM`, 3: a requested dimension is not above 8. -/
  | dim
  /-- `E_CAPACITY`, 4: the grid needs more blocks than the storage holds. -/
  | capacity
  /-- `E_PIXEL`, 5: the pixel coordinate is out of range. -/
  | pixel
  /-- `E_BLOCK`, 6: the block coordinate is out of range. -/
  | block
  /-- `E_DEPTH`, 7: the depth is out of range. -/
  | depth
  deriving DecidableEq, Repr

/-- What a response's STATUS says. Codes 8 to 15 are never produced (R101), so they have no constructor. -/
inductive Status where
  /-- `OK`, 0. -/
  | ok
  /-- A rejection with its code. -/
  | rejected (reason : Rejection)
  deriving DecidableEq, Repr

/-- One response: STATUS and RESULT (30_encoding.md R49, R50). -/
structure Response where
  status : Status
  result : BitVec 64
  deriving DecidableEq, Repr

/-- What the host does to the unit, in the order in which it does it (70_reset_and_hazards.md R116, R117, R121). -/
inductive HostInput where
  /-- A command presented on the port until it is accepted (R121). -/
  | command (c : Command)
  /-- `rst = 1` at a clock edge at which no command is in progress (R116). -/
  | reset
  /-- A command that is accepted, then `rst = 1` before its response: it is abandoned (R117). -/
  | commandCutByReset (c : Command)
  deriving DecidableEq, Repr

/-- The bit-plane storage: plane address and plane word (20_memory.md R35), in rising order of address, with no word
that equals what an unlisted address reads as (0: log entry 2). The unit of storage is the 64-bit plane word; the BPBS
has no byte-addressed memory (R40, log entry 3). -/
abbrev Memory := List (Nat × Plane)

/-- The state. `planes` to `errcode` are the elements of 10_state.md R15, `inProgress` is R30's; the last three are
the model's own. -/
structure State where
  /-- `PLANE[b][d]` at plane address `32*b + d` (R16, 20_memory.md R35). -/
  planes : Memory
  /-- `CFG_BW`, u32 (R17). -/
  cfgBw : Word32
  /-- `CFG_BH`, u32 (R17). -/
  cfgBh : Word32
  /-- `CONFIGURED`, 1 bit (R18). -/
  configured : Bool
  /-- `MODE`, 1 bit (R19). -/
  mode : CodingMode
  /-- `ERR`, 1 bit (R20). -/
  err : Bool
  /-- `ERRCODE`, 4 bits (R21). -/
  errcode : BitVec 4
  /-- The command in progress (R30), as the response it will deliver: `none` when no command is in progress. -/
  inProgress : Option Response
  /-- `NBLK_MAX`: a parameter, which no step changes (R31). It stands here because the model takes it as an argument
  (00_scope.md R7) and `exec` has no other. Log entry 1. -/
  nblkMax : Word32
  /-- What the host will do next, oldest first. Log entry 4. -/
  inputs : List HostInput
  /-- The responses delivered so far, oldest first (70_reset_and_hazards.md R126: each command's observation).
  Log entry 4. -/
  responses : List Response
  deriving DecidableEq, Repr

/-- What stops the machine. The spec has no trap and no stop (60_exceptions.md R98): this one is raised in states
that no run reaches. -/
inductive Fault where
  /-- Raised by every meaning that reads or writes the planes, when the grid has more blocks than the storage
  (20_memory.md R36): such a plane address does not exist. 10_state.md R17 rules it out in every state a run reaches.
  SAFE. Log entry 5. -/
  | noSuchPlane
  deriving DecidableEq, Repr

/-- What the model gives no meaning to. No command is refused. -/
inductive Refusal where
  /-- Raised by an arm of `exec` that has no meaning yet: there is none. SAFE. -/
  | notModelled (mnemonic : String)
  deriving DecidableEq, Repr

/-- The state after reset (10_state.md R32, 70_reset_and_hazards.md R116). The contents of `PLANE` are unspecified and
unobservable: with nothing listed every word reads 0 (DESIGN CHOICE, log entry 2). `NBLK_MAX` is the open parameter
(log entry 1). No host input waits and no response has been delivered (log entry 4). -/
def State.reset : State where
  planes := []
  cfgBw := 0
  cfgBh := 0
  configured := false
  mode := .pbc
  err := false
  errcode := 0
  inProgress := none
  nblkMax := Config.nblkMax
  inputs := []
  responses := []

end Sys2Proof.Machine
end

