-- ==== Sys2Proof/Machine/Flags.lean ====
section
/-! DEFINITION. The status codes, the sticky error record and the status word: every flag computation the spec gives
(10_state.md R19 to R23, 60_exceptions.md R101, R104). -/

namespace Sys2Proof.Machine

/-- The value of the mode bit (10_state.md R19). -/
def CodingMode.bit : CodingMode → BitVec 1
  | .pbc => 0
  | .cgc => 1

/-- The code of a rejection (60_exceptions.md R101). -/
def Rejection.code : Rejection → BitVec 4
  | .illegal => 1
  | .state => 2
  | .dim => 3
  | .capacity => 4
  | .pixel => 5
  | .block => 6
  | .depth => 7

/-- The value of the 4-bit STATUS field (60_exceptions.md R101). -/
def Status.code : Status → BitVec 4
  | .ok => 0
  | .rejected e => e.code

/-- The sticky record of a rejection: the code is kept if it is the first since the record was clear
(60_exceptions.md R104). -/
def State.recordError (e : Rejection) (s : State) : State :=
  { s with err := true, errcode := if s.err then s.errcode else e.code }

/-- The sticky record cleared (44_status.md R97). -/
def State.clearError (s : State) : State := { s with err := false, errcode := 0 }

/-- `STATUSWORD`, 64 bits: ERRCODE in 7:4, 0 in 3, ERR in 2, MODE in 1, CONFIGURED in 0 (10_state.md R23,
44_status.md R96). -/
def State.statusWord (s : State) : BitVec 64 :=
  (s.errcode ++ 0#1 ++ BitVec.ofBool s.err ++ s.mode.bit ++ BitVec.ofBool s.configured : BitVec 8).zeroExtend 64

end Sys2Proof.Machine
end

