-- ==== Sys2Proof/Machine/Operands.lean ====
section
/-! DEFINITION. How operands are read (30_encoding.md R52), the range predicates and the coordinate translation
(20_memory.md R33 to R39), and the values derived from the geometry (10_state.md R24, 40_grid.md R64). -/

namespace Sys2Proof.Machine

/-- The two's complement value of a 32-bit pattern (00_scope.md R9). -/
def s32 (v : Word32) : Int := v.toInt

/-- `BW` (10_state.md R24). -/
def State.bw (s : State) : Nat := s.cfgBw.toNat

/-- `BH` (10_state.md R24). -/
def State.bh (s : State) : Nat := s.cfgBh.toNat

/-- `EW`, the effective width (10_state.md R24). -/
def State.ew (s : State) : Nat := 8 * s.bw

/-- `EH`, the effective height (10_state.md R24). -/
def State.eh (s : State) : Nat := 8 * s.bh

/-- `NBLK`, the number of blocks in use (10_state.md R24). -/
def State.nblk (s : State) : Nat := s.bw * s.bh

/-- The blocks across a requested dimension: `(W - 1) div 8`, for `W > 8` (40_grid.md R64). -/
def blocksAcross (requested : Int) : Nat := ((requested - 1) / 8).toNat

/-- Both requested dimensions are above 8 (40_grid.md R62). -/
def dimensionsOk (width height : Word32) : Bool := 8 < s32 width && 8 < s32 height

/-- `inRange(x, y)` (20_memory.md R38). -/
def State.inRange (s : State) (x y : Word32) : Bool :=
  0 ≤ s32 x && s32 x < s.ew && 0 ≤ s32 y && s32 y < s.eh

/-- `blockInRange(bx, by)` (20_memory.md R39). -/
def State.blockInRange (s : State) (bx byy : Word32) : Bool :=
  0 ≤ s32 bx && s32 bx < s.bw && 0 ≤ s32 byy && s32 byy < s.bh

/-- `depthInRange(d)` (20_memory.md R39). -/
def depthInRange (depth : Word32) : Bool := 0 ≤ s32 depth && s32 depth < 32

/-- The flat index of a block: `by*BW + bx` (20_memory.md R34). -/
def State.flatIndex (s : State) (bx byy : Nat) : Nat := byy * s.bw + bx

/-- The block of an in-range pixel (20_memory.md R37). -/
def State.pixelBlock (s : State) (x y : Word32) : Nat :=
  s.flatIndex ((s32 x).toNat / 8) ((s32 y).toNat / 8)

/-- The plane position of an in-range pixel: `8*ry + rx` (20_memory.md R33, R37). -/
def pixelPosition (x y : Word32) : Nat := 8 * ((s32 y).toNat % 8) + (s32 x).toNat % 8

/-- The block an in-range block coordinate names (20_memory.md R34, 42_bitplane.md R81). -/
def State.operandBlock (s : State) (bx byy : Word32) : Nat :=
  s.flatIndex (s32 bx).toNat (s32 byy).toNat

/-- The plane address of depth `d` of block `b` (20_memory.md R35). -/
def planeAddress (b d : Nat) : Nat := 32 * b + d

/-- Channel `k` of a pixel value: 0 blue, 1 green, 2 red, 3 alpha (41_pixel_codec.md R71, R72). -/
def channel (color : Color) (k : Nat) : BitVec 8 := color.extractLsb' (Config.chb * k) Config.chb

end Sys2Proof.Machine
end

