-- ==== Sys2Proof/Machine/Ops.lean ====
section
/-! DEFINITION. The operations every meaning is written over: the plane storage, answering a command, rejecting it
(the BPBS's one exception: it has no trap entry and no return, 60_exceptions.md R98, R107, R108), delivering a
response, and reset. -/

namespace Sys2Proof.Machine

/-! ### The plane storage (20_memory.md R35, 00_scope.md R11) -/

/-- The canonical form: addresses strictly rising, and no word that reads as an unlisted one. -/
abbrev Memory.wf (m : Memory) : Prop :=
  m.Pairwise (fun x y => x.1 < y.1) ∧ ∀ cell ∈ m, cell.2 ≠ 0

/-- `MemRead(a, 64)`. What an unlisted address reads as: 0 (DESIGN CHOICE, unobservable; log entry 2). -/
def Memory.read : Memory → Nat → Plane
  | [], _ => 0
  | (k, v) :: m, a => if k = a then v else Memory.read m a

/-- The storage without the word at an address. -/
def Memory.without (m : Memory) (a : Nat) : Memory := m.filter (fun cell => decide (cell.1 ≠ a))

/-- The storage with a word put in its place in the rising order. -/
def Memory.put : Memory → Nat → Plane → Memory
  | [], a, v => [(a, v)]
  | (k, w) :: m, a, v => if a < k then (a, v) :: (k, w) :: m else (k, w) :: Memory.put m a v

/-- `MemWrite(a, 64, v)`. Writing what an unlisted address reads as removes the word. -/
def Memory.write (m : Memory) (a : Nat) (v : Plane) : Memory :=
  if v = 0 then m.without a else (m.without a).put a v

/-- The storage with zero in every word below an address: CONFIG's zeroing (40_grid.md R65). -/
def Memory.clearBelow (m : Memory) (n : Nat) : Memory := m.filter (fun cell => decide (n ≤ cell.1))

/-- `PLANE[b][d]` (00_scope.md R11). -/
def Memory.plane (m : Memory) (b d : Nat) : Plane := m.read (planeAddress b d)

/-- `PLANE[b][d] <- v` (00_scope.md R11). -/
def Memory.setPlane (m : Memory) (b d : Nat) (v : Plane) : Memory := m.write (planeAddress b d) v

/-- `PLANE[b][d]` of a state. -/
def State.plane (s : State) (b d : Nat) : Plane := s.planes.plane b d

/-! ### Answering a command -/

/-- An outcome of the machine. -/
abbrev Result := Host.Outcome State Fault Refusal

/-- `respond(s, r)`: the command ends; its response is what the unit will deliver (00_scope.md R12). -/
def State.respond (status : Status) (result : BitVec 64) (s : State) : State :=
  { s with inProgress := some ⟨status, result⟩ }

/-- The command completes with `OK` (60_exceptions.md R101). -/
def complete (result : BitVec 64) (s : State) : Result := .next (s.respond .ok result)

/-- `raise E_X`: the error record, the code and a zero result, and no other write (60_exceptions.md R102). -/
def reject (e : Rejection) (s : State) : Result := .next ((s.recordError e).respond (.rejected e) 0)

/-- A check that gates a grid command: no grid, no command (10_state.md R18, 60_exceptions.md R103). -/
def needGrid (s : State) (go : Result) : Result := if s.configured then go else reject .state s

/-- A check that gates the rest of a command (60_exceptions.md R103). -/
def check (ok : Bool) (e : Rejection) (s : State) (go : Result) : Result := if ok then go else reject e s

/-- An access to the planes of blocks below `n`: they exist only up to `NBLK_MAX` (20_memory.md R36). Log entry 5. -/
def accessBlocks (n : Nat) (s : State) (go : Result) : Result :=
  if n ≤ s.nblkMax.toNat then go else .fault .noSuchPlane

/-! ### Delivering a response, and reset -/

/-- The response is presented and no command is in progress any more (70_reset_and_hazards.md R121, R123). -/
def State.deliver (s : State) : State :=
  match s.inProgress with
  | none => s
  | some r => { s with inProgress := none, responses := s.responses ++ [r] }

/-- A clock edge with `rst = 1`: every element takes its reset value, `PLANE` is not written, and a command in
progress is abandoned (70_reset_and_hazards.md R116, R117). -/
def State.resetEdge (s : State) : State :=
  { s with
    cfgBw := 0
    cfgBh := 0
    configured := false
    mode := .pbc
    err := false
    errcode := 0
    inProgress := none }

/-- An outcome with its state changed; a stop stays the stop it is. -/
def Result.map (f : State → State) : Result → Result
  | .next s => .next (f s)
  | .fault r => .fault r
  | .refused r => .refused r

end Sys2Proof.Machine
end

