-- ==== Sys2Proof/Machine/Bitplane.lean ====
section
/-! DEFINITION. Bit-plane access commands (42_bitplane.md). -/

namespace Sys2Proof.Machine

/-- GETPLANE (42_bitplane.md R81). -/
def execGetplane (blockX blockY depth : Word32) (s : State) : Result :=
  needGrid s
    (check (s.blockInRange blockX blockY) .block s
      (check (depthInRange depth) .depth s
        (accessBlocks (s.operandBlock blockX blockY + 1) s
          (complete (s.plane (s.operandBlock blockX blockY) (s32 depth).toNat) s))))

/-- SETPLANE (42_bitplane.md R82). -/
def execSetplane (blockX blockY depth : Word32) (plane : Plane) (s : State) : Result :=
  needGrid s
    (check (s.blockInRange blockX blockY) .block s
      (check (depthInRange depth) .depth s
        (accessBlocks (s.operandBlock blockX blockY + 1) s
          (complete 0
            { s with planes := s.planes.setPlane (s.operandBlock blockX blockY) (s32 depth).toNat plane }))))

end Sys2Proof.Machine
end

