-- ==== Sys2Proof/Machine/Grid.lean ====
section
/-! DEFINITION. Grid construction and geometry commands (40_grid.md). -/

namespace Sys2Proof.Machine

/-- The grid constructed: every plane of the blocks in use zero, the geometry, `CONFIGURED` and `MODE`
(40_grid.md R65). -/
def State.construct (bw bh : Nat) (s : State) : State :=
  { s with
    planes := s.planes.clearBelow (32 * (bw * bh))
    cfgBw := BitVec.ofNat 32 bw
    cfgBh := BitVec.ofNat 32 bh
    configured := true
    mode := .pbc }

/-- CONFIG (40_grid.md R65): `E_STATE`, `E_DIM`, `E_CAPACITY`, then the grid. The product of R63 is exact. -/
def execConfig (width height : Word32) (s : State) : Result :=
  let bw := blocksAcross (s32 width)
  let bh := blocksAcross (s32 height)
  check (!s.configured) .state s
    (check (dimensionsOk width height) .dim s
      (check (decide (bw * bh ≤ s.nblkMax.toNat)) .capacity s
        (complete 0 (s.construct bw bh))))

/-- INRANGE (40_grid.md R67): 1 or 0 in bit 0; out of range is no error. -/
def execInrange (x y : Word32) (s : State) : Result :=
  needGrid s (complete (if s.inRange x y then 1 else 0) s)

/-- GETBW (40_grid.md R68). -/
def execGetbw (s : State) : Result := needGrid s (complete (s.cfgBw.zeroExtend 64) s)

/-- GETBH (40_grid.md R69). -/
def execGetbh (s : State) : Result := needGrid s (complete (s.cfgBh.zeroExtend 64) s)

/-- GETCAP (40_grid.md R70). -/
def execGetcap (s : State) : Result := complete (s.nblkMax.zeroExtend 64) s

end Sys2Proof.Machine
end

