-- ==== Sys2Proof/Machine/Pixel.lean ====
section
/-! DEFINITION. Pixel codec commands (41_pixel_codec.md). -/

namespace Sys2Proof.Machine

/-- A plane with bit `p` replaced: `(v & ~(1 << p)) | (zext_64(bit) << p)` (41_pixel_codec.md R73). -/
def withBit (v : Plane) (p : Nat) (bit : Bool) : Plane :=
  (v &&& ~~~(1#64 <<< p)) ||| ((BitVec.ofBool bit).zeroExtend 64 <<< p)

/-- The first `n` steps of `blkSet(b, p, color)`: planes 0 to `n - 1` (41_pixel_codec.md R73). -/
def Memory.blkSetSteps (b p : Nat) (color : Color) : Nat → Memory → Memory
  | 0, m => m
  | n + 1, m =>
    let m' := Memory.blkSetSteps b p color n m
    m'.setPlane b n (withBit (m'.plane b n) p (color.getLsbD n))

/-- `blkSet(b, p, color)`: `d` in 0 .. 31 (41_pixel_codec.md R73). -/
def Memory.blkSet (m : Memory) (b p : Nat) (color : Color) : Memory := Memory.blkSetSteps b p color 32 m

/-- The steps of `blkGet(b, p)` for depths `n - 1` down to 0, from the value `r` read so far
(41_pixel_codec.md R74). -/
def Memory.blkGetSteps (m : Memory) (b p : Nat) : Nat → Color → Color
  | 0, r => r
  | n + 1, r =>
    Memory.blkGetSteps m b p n ((r <<< 1) ||| (BitVec.ofBool ((m.plane b n).getLsbD p)).zeroExtend 32)

/-- `blkGet(b, p)`: `d` in 31 downto 0 (41_pixel_codec.md R74). -/
def Memory.blkGet (m : Memory) (b p : Nat) : Color := m.blkGetSteps b p 32 0

/-- SETCOLOR (41_pixel_codec.md R76). -/
def execSetcolor (x y : Word32) (color : Color) (s : State) : Result :=
  needGrid s
    (check (s.inRange x y) .pixel s
      (accessBlocks (s.pixelBlock x y + 1) s
        (complete 0 { s with planes := s.planes.blkSet (s.pixelBlock x y) (pixelPosition x y) color })))

/-- GETCOLOR (41_pixel_codec.md R77). -/
def execGetcolor (x y : Word32) (s : State) : Result :=
  needGrid s
    (check (s.inRange x y) .pixel s
      (accessBlocks (s.pixelBlock x y + 1) s
        (complete ((s.planes.blkGet (s.pixelBlock x y) (pixelPosition x y)).zeroExtend 64) s)))

end Sys2Proof.Machine
end

