-- ==== Sys2Proof/Machine/StatusCommands.lean ====
section
/-! DEFINITION. Status and control commands (44_status.md). -/

namespace Sys2Proof.Machine

/-- RDSTAT (44_status.md R96): the view, and no change. -/
def execRdstat (s : State) : Result := complete s.statusWord s

/-- CLRERR (44_status.md R97). -/
def execClrerr (s : State) : Result := complete 0 s.clearError

end Sys2Proof.Machine
end

