-- ==== Sys2Proof/Machine/Transform.lean ====
section
/-! DEFINITION. Binary/Gray code transform commands (43_code_transform.md). The cascades are the source's own, over all
32 depths; they are not the usual Gray code (R93, 90_conflicts.md C2). -/

namespace Sys2Proof.Machine

/-- One step of either cascade: plane `d + 1` becomes plane `d + 1` XOR plane `d`. -/
def Memory.xorStep (m : Memory) (b d : Nat) : Memory :=
  m.setPlane b (d + 1) (m.plane b (d + 1) ^^^ m.plane b d)

/-- The steps of `cgcBlock(b)` for depths `n` down to 1 (43_code_transform.md R86). -/
def Memory.cgcSteps (b : Nat) : Nat → Memory → Memory
  | 0, m => m
  | n + 1, m => Memory.cgcSteps b n (m.xorStep b n)

/-- `cgcBlock(b)`: `d` in 31 downto 1 (43_code_transform.md R86). -/
def Memory.cgcBlock (m : Memory) (b : Nat) : Memory := Memory.cgcSteps b 31 m

/-- The steps of `pbcBlock(b)` for depths 1 to `n` (43_code_transform.md R88). -/
def Memory.pbcSteps (b : Nat) : Nat → Memory → Memory
  | 0, m => m
  | n + 1, m => (Memory.pbcSteps b n m).xorStep b n

/-- `pbcBlock(b)`: `d` in 1 to 31 (43_code_transform.md R88). -/
def Memory.pbcBlock (m : Memory) (b : Nat) : Memory := Memory.pbcSteps b 31 m

/-- A block operation on every block below `n`, in rising order; the order is not observable
(43_code_transform.md R87, 92_eei_decisions.md D27). -/
def Memory.eachBlock (op : Memory → Nat → Memory) : Nat → Memory → Memory
  | 0, m => m
  | n + 1, m => op (Memory.eachBlock op n m) n

/-- TOCGC (43_code_transform.md R87). -/
def execTocgc (s : State) : Result :=
  needGrid s
    (accessBlocks s.nblk s
      (complete 0 { s with planes := Memory.eachBlock Memory.cgcBlock s.nblk s.planes, mode := .cgc }))

/-- TOPBC (43_code_transform.md R89). -/
def execTopbc (s : State) : Result :=
  needGrid s
    (accessBlocks s.nblk s
      (complete 0 { s with planes := Memory.eachBlock Memory.pbcBlock s.nblk s.planes, mode := .pbc }))

end Sys2Proof.Machine
end

