-- ==== Sys2Proof/Machine/Dispatch.lean ====
section
/-! DEFINITION. The meaning of each command: one arm per constructor of Instr. -/

namespace Sys2Proof.Machine

/-- What a decoded command does to the state it is accepted in, up to the response it leaves to be delivered
(00_scope.md R13). -/
def exec (i : Instr) (s : State) : Host.Outcome State Fault Refusal :=
  match i with
  | .config width height => Sys2Proof.Machine.execConfig width height s
  | .inrange x y => Sys2Proof.Machine.execInrange x y s
  | .getbw => Sys2Proof.Machine.execGetbw s
  | .getbh => Sys2Proof.Machine.execGetbh s
  | .setcolor x y color => Sys2Proof.Machine.execSetcolor x y color s
  | .getcolor x y => Sys2Proof.Machine.execGetcolor x y s
  | .getplane blockX blockY depth => Sys2Proof.Machine.execGetplane blockX blockY depth s
  | .setplane blockX blockY depth plane => Sys2Proof.Machine.execSetplane blockX blockY depth plane s
  | .tocgc => Sys2Proof.Machine.execTocgc s
  | .topbc => Sys2Proof.Machine.execTopbc s
  | .rdstat => Sys2Proof.Machine.execRdstat s
  | .clrerr => Sys2Proof.Machine.execClrerr s
  | .getcap => Sys2Proof.Machine.execGetcap s

end Sys2Proof.Machine
end

