-- ==== Sys2Proof/Machine/Transaction.lean ====
section
/-! DEFINITION. One transaction on the command port: decode, perform, deliver; and what each host input does
(30_encoding.md R49, 20_memory.md R44, 70_reset_and_hazards.md R116, R117, R121). -/

namespace Sys2Proof.Machine

/-- What an accepted command does: decoding comes before anything else, and an illegal command is rejected with
`E_ILLEGAL` (30_encoding.md R55). -/
def perform (c : Command) (s : State) : Result :=
  match decode c with
  | .ok i => exec i s
  | .error _ => reject .illegal s

/-- What the unit does with the host input it meets when no command is in progress. A command that reset cuts leaves the
planes as if it had run; no command can read them (70_reset_and_hazards.md R117). Log entry 6. -/
def takeInput (input : HostInput) (s : State) : Result :=
  match input with
  | .command c => Result.map State.deliver (perform c s)
  | .reset => .next s.resetEdge
  | .commandCutByReset c => Result.map State.resetEdge (perform c s)

/-- One step. A reset takes priority over a command in progress (R117); otherwise a command in progress is finished
before another is accepted (R121); otherwise the next host input is met; with none the unit is idle and keeps its
whole state (60_exceptions.md R114). -/
def advance (s : State) : Result :=
  match s.inputs with
  | [] => .next s.deliver
  | .reset :: rest => takeInput .reset { s with inputs := rest }
  | input :: rest =>
    match s.inProgress with
    | some _ => .next s.deliver
    | none => takeInput input { s with inputs := rest }

/-- The host presents a command as its next input, with no command in progress. -/
def State.present (c : Command) (s : State) : State :=
  { s with inProgress := none, inputs := .command c :: s.inputs }

end Sys2Proof.Machine
end

