-- ==== Sys2Proof/Machine/Step.lean ====
section
/-! DEFINITION. The step, and how the host's word becomes the next command. -/

namespace Sys2Proof.Machine

/-- One step of the machine: one host input, and for a command its whole transaction (00_scope.md R13,
70_reset_and_hazards.md R125: a model treats each command as one step). -/
def step (s : State) : Host.Outcome State Fault Refusal := advance s

/-- The state with a table word presented as the next command. The BPBS fetches no instruction (10_state.md R28): the
host presents each command on the port, so this stands for the host. Log entry 4. -/
def State.withFetchWord (s : State) (nbits w : Nat) : State := s.present (Command.ofTableWord nbits w)

end Sys2Proof.Machine
end

