-- ==== Sys2Proof/Machine/Assembler.lean ====
section
/-! DEFINITION. The host's assembler: a line of text to a command on the port (30_encoding.md R58 to R60), and the
listing form (R61). Text is a list of characters. No meaning reads this file.
What R58 to R61 leave open of the text is log entry 7. -/

namespace Sys2Proof.Machine

/-- Why a line is no command (30_encoding.md R58, R59). -/
inductive AsmError where
  /-- No command has this mnemonic. -/
  | unknownMnemonic
  /-- The line does not hold exactly the operands its mnemonic uses. -/
  | operandCount
  /-- An operand is not a decimal or `0x` literal. -/
  | badLiteral
  /-- A literal is out of its operand's range. -/
  | literalRange
  deriving DecidableEq, Repr

/-- The value of a decimal digit. -/
def decimalDigit (ch : Char) : Option Nat :=
  if '0' ≤ ch ∧ ch ≤ '9' then some (ch.toNat - '0'.toNat) else none

/-- The value of a hexadecimal digit, in either case. -/
def hexDigit (ch : Char) : Option Nat :=
  if 'a' ≤ ch ∧ ch ≤ 'f' then some (ch.toNat - 'a'.toNat + 10)
  else if 'A' ≤ ch ∧ ch ≤ 'F' then some (ch.toNat - 'A'.toNat + 10)
  else decimalDigit ch

/-- The value of the digits, most significant first, above the value read so far. -/
def digitsValue (digit : Char → Option Nat) (base : Nat) : List Char → Nat → Option Nat
  | [], acc => some acc
  | ch :: rest, acc => (digit ch).bind fun v => digitsValue digit base rest (acc * base + v)

/-- A numeral: at least one digit. -/
def numeral (digit : Char → Option Nat) (base : Nat) (text : List Char) : Option Nat :=
  if text = [] then none else digitsValue digit base text 0

/-- A literal: decimal with an optional leading `-`, or hexadecimal with prefix `0x` (30_encoding.md R59). -/
def parseLiteral (text : List Char) : Option Int :=
  match text with
  | '0' :: 'x' :: rest => (numeral hexDigit 16 rest).map Int.ofNat
  | '-' :: rest => (numeral decimalDigit 10 rest).map fun n => -(n : Int)
  | rest => (numeral decimalDigit 10 rest).map Int.ofNat

/-- A blank between words. -/
def isBlank (ch : Char) : Bool := ch == ' ' || ch == '\t'

/-- Text without blanks at either end. -/
def trim (text : List Char) : List Char := ((text.dropWhile isBlank).reverse.dropWhile isBlank).reverse

/-- Text cut at each comma. -/
def splitAtCommas : List Char → List (List Char)
  | [] => [[]]
  | ch :: rest =>
    match splitAtCommas rest with
    | [] => [[ch]]
    | piece :: more => if ch = ',' then [] :: piece :: more else (ch :: piece) :: more

/-- Text after `;` is a comment (30_encoding.md R58). -/
def withoutComment (line : List Char) : List Char := line.takeWhile (· != ';')

/-- The operand texts after a mnemonic, in the order A, B, C, D. -/
def operandTexts (text : List Char) : List (List Char) :=
  if trim text = [] then [] else (splitAtCommas text).map trim

/-- A 32-bit operand: an integer in `[-2^31, 2^32)`, modulo `2^32` (30_encoding.md R59). -/
def operand32 (text : List Char) : Except AsmError Word32 :=
  match parseLiteral text with
  | none => .error .badLiteral
  | some n => if Literal.fits32 n then .ok (BitVec.ofInt 32 n) else .error .literalRange

/-- The 64-bit operand: an integer in `[0, 2^64)` (30_encoding.md R59). -/
def operand64 (text : List Char) : Except AsmError Plane :=
  match parseLiteral text with
  | none => .error .badLiteral
  | some n => if Literal.fits64 n then .ok (BitVec.ofInt 64 n) else .error .literalRange

/-- A command with no operand. -/
def asm0 (i : Instr) : List (List Char) → Except AsmError Instr
  | [] => .ok i
  | _ => .error .operandCount

/-- A command with operands A and B. -/
def asm2 (f : Word32 → Word32 → Instr) : List (List Char) → Except AsmError Instr
  | [a, b] => do return f (← operand32 a) (← operand32 b)
  | _ => .error .operandCount

/-- A command with operands A, B and C. -/
def asm3 (f : Word32 → Word32 → Word32 → Instr) : List (List Char) → Except AsmError Instr
  | [a, b, c] => do return f (← operand32 a) (← operand32 b) (← operand32 c)
  | _ => .error .operandCount

/-- A command with operands A, B, C and D. -/
def asm4 (f : Word32 → Word32 → Word32 → Plane → Instr) : List (List Char) → Except AsmError Instr
  | [a, b, c, d] => do return f (← operand32 a) (← operand32 b) (← operand32 c) (← operand64 d)
  | _ => .error .operandCount

/-- The thirteen mnemonics and the operands each line holds (30_encoding.md R58). There are no pseudo-instructions
(R60). -/
def assembleOperands (mnemonic : List Char) (operands : List (List Char)) : Except AsmError Instr :=
  match mnemonic with
  | ['C', 'O', 'N', 'F', 'I', 'G'] => asm2 .config operands
  | ['I', 'N', 'R', 'A', 'N', 'G', 'E'] => asm2 .inrange operands
  | ['G', 'E', 'T', 'B', 'W'] => asm0 .getbw operands
  | ['G', 'E', 'T', 'B', 'H'] => asm0 .getbh operands
  | ['G', 'E', 'T', 'C', 'A', 'P'] => asm0 .getcap operands
  | ['S', 'E', 'T', 'C', 'O', 'L', 'O', 'R'] => asm3 .setcolor operands
  | ['G', 'E', 'T', 'C', 'O', 'L', 'O', 'R'] => asm2 .getcolor operands
  | ['G', 'E', 'T', 'P', 'L', 'A', 'N', 'E'] => asm3 .getplane operands
  | ['S', 'E', 'T', 'P', 'L', 'A', 'N', 'E'] => asm4 .setplane operands
  | ['T', 'O', 'C', 'G', 'C'] => asm0 .tocgc operands
  | ['T', 'O', 'P', 'B', 'C'] => asm0 .topbc operands
  | ['R', 'D', 'S', 'T', 'A', 'T'] => asm0 .rdstat operands
  | ['C', 'L', 'R', 'E', 'R', 'R'] => asm0 .clrerr operands
  | _ => .error .unknownMnemonic

/-- One line: no command if it holds only blanks and a comment, else the command on the port, with each ignored port 0
(30_encoding.md R58). -/
def assembleLine (line : List Char) : Except AsmError (Option Command) :=
  let text := trim (withoutComment line)
  if text = [] then .ok none
  else do
    let i ← assembleOperands (text.takeWhile fun ch => !isBlank ch) (operandTexts (text.dropWhile fun ch => !isBlank ch))
    return some (encode i)

/-! ### The listing form (30_encoding.md R61) -/

/-- A hexadecimal digit in capitals. -/
def hexChar (n : Nat) : Char := if n < 10 then Char.ofNat ('0'.toNat + n) else Char.ofNat ('A'.toNat + n - 10)

/-- The `width` lowest hexadecimal digits of a number, most significant first. -/
def hexText : (width : Nat) → Nat → List Char
  | 0, _ => []
  | w + 1, n => hexText w (n / 16) ++ [hexChar (n % 16)]

/-- A field of a listing: its name, `=0x` and its digits. -/
def field (name : List Char) (width n : Nat) : List Char := name ++ ['=', '0', 'x'] ++ hexText width n

/-- How many of the ports A, B, C, D a command uses, in that order (30_encoding.md R52). -/
def portsUsed : Instr → Nat
  | .config _ _ | .inrange _ _ | .getcolor _ _ => 2
  | .setcolor _ _ _ | .getplane _ _ _ => 3
  | .setplane _ _ _ _ => 4
  | .getbw | .getbh | .tocgc | .topbc | .rdstat | .clrerr | .getcap => 0

/-- A command's encoding: `CMD=0x000000oo` and then the operand ports it uses, in hexadecimal. -/
def listCommand (i : Instr) : List Char :=
  let c := encode i
  let ports := [field ['A'] 8 c.a.toNat, field ['B'] 8 c.b.toNat, field ['C'] 8 c.c.toNat, field ['D'] 16 c.d.toNat]
  [' '].intercalate (field ['C', 'M', 'D'] 8 c.cmd.toNat :: ports.take (portsUsed i))

/-- The name of a status code (60_exceptions.md R101). -/
def statusName : Status → List Char
  | .ok => ['O', 'K']
  | .rejected .illegal => ['E', '_', 'I', 'L', 'L', 'E', 'G', 'A', 'L']
  | .rejected .state => ['E', '_', 'S', 'T', 'A', 'T', 'E']
  | .rejected .dim => ['E', '_', 'D', 'I', 'M']
  | .rejected .capacity => ['E', '_', 'C', 'A', 'P', 'A', 'C', 'I', 'T', 'Y']
  | .rejected .pixel => ['E', '_', 'P', 'I', 'X', 'E', 'L']
  | .rejected .block => ['E', '_', 'B', 'L', 'O', 'C', 'K']
  | .rejected .depth => ['E', '_', 'D', 'E', 'P', 'T', 'H']

/-- A response: `-> STATUS=<name> RESULT=0x<16 hex digits>`. -/
def listResponse (r : Response) : List Char :=
  ['-', '>', ' ', 'S', 'T', 'A', 'T', 'U', 'S', '='] ++ statusName r.status ++ [' '] ++
    field ['R', 'E', 'S', 'U', 'L', 'T'] 16 r.result.toNat

end Sys2Proof.Machine
end

