-- ==== Sys2Proof/Machine/Port.lean ====
section
/-! DEFINITION. The command port clock edge by clock edge (70_reset_and_hazards.md R116, R117, R120 to R123). The step of
the machine is the transaction (00_scope.md R13); this file gives the builder's view of the same unit, over the same
state and the same meanings. Log entry 8. -/

namespace Sys2Proof.Machine

/-- The unit's inputs at a rising clock edge (70_reset_and_hazards.md R120). -/
structure Pins where
  /-- `rst` -/
  rst : Bool
  /-- `cmd_valid` -/
  cmdValid : Bool
  /-- `cmd`, `arg_a`, `arg_b`, `arg_c`, `arg_d` -/
  command : Command
  deriving DecidableEq, Repr

/-- The unit's outputs in a cycle (70_reset_and_hazards.md R120). -/
structure PortOutputs where
  /-- `cmd_ready` -/
  cmdReady : Bool
  /-- `rsp_valid` -/
  rspValid : Bool
  /-- `rsp_status` -/
  rspStatus : BitVec 4
  /-- `rsp_result` -/
  rspResult : BitVec 64
  deriving DecidableEq, Repr

/-- The unit in the cycle between two edges. -/
structure Port where
  /-- The unit's state; `inProgress` is the command in progress (10_state.md R30). -/
  unit : State
  /-- Cycles until the response cycle of the command in progress. -/
  left : Nat
  /-- The number of this cycle: the free values of the response port are applied to it. -/
  cycle : Nat
  deriving DecidableEq, Repr

/-- What the unit drives in a cycle, with `rst` as it is in that cycle: ready exactly when `rst = 0` and no command is
in progress (R121); a response for exactly the one cycle in which none is left to wait (R123); neither while `rst = 1`
(R116); and unspecified `rsp_status` and `rsp_result` outside a response cycle (R123). -/
def Port.outputs (rst : Bool) (p : Port) : PortOutputs :=
  let idle (ready : Bool) : PortOutputs := ⟨ready, false, Config.idleStatus p.cycle, Config.idleResult p.cycle⟩
  match rst, p.unit.inProgress with
  | true, _ => idle false
  | false, none => idle true
  | false, some r => if p.left = 0 then ⟨false, true, r.status.code, r.result⟩ else idle false

/-- `LAT(op)`: one integer for each opcode, and at least 1; for CONFIG, TOCGC and TOPBC it may grow with the number of
blocks in use (00_scope.md R7, 70_reset_and_hazards.md R125). -/
def Instr.latency (i : Instr) (blocks : Nat) : Nat :=
  match i with
  | .config _ _ | .tocgc | .topbc => Config.gridLatencyPred i.opcode blocks + 1
  | .inrange _ _ | .getbw | .getbh | .setcolor _ _ _ | .getcolor _ _ | .getplane _ _ _ | .setplane _ _ _ _ | .rdstat
  | .clrerr | .getcap => Config.latencyPred i.opcode + 1

/-- Cycles from the acceptance of any command to its response (R123). An illegal word has no `LAT(op)`: its latency is
a free value. Log entry 8. -/
def latency (c : Command) (blocks : Nat) : Nat :=
  match decode c with
  | .ok i => Instr.latency i blocks
  | .error _ => Config.illegalLatencyPred c.cmd + 1

/-- A command accepted at an edge: all its state changes, and its response `LAT` cycles away (R121, R123). -/
def Port.accept (c : Command) (p : Port) : Host.Outcome Port Fault Refusal :=
  match perform c p.unit with
  | .next u => .next ⟨u, latency c u.nblk, p.cycle + 1⟩
  | .fault f => .fault f
  | .refused r => .refused r

/-- One rising clock edge. Reset first (R116, R117); else a command in progress waits, or ends at the edge that ends its
response cycle (R121); else a valid command is accepted (R121); else the unit stays idle. -/
def Port.edge (pins : Pins) (p : Port) : Host.Outcome Port Fault Refusal :=
  match pins.rst, p.unit.inProgress with
  | true, _ => .next ⟨p.unit.resetEdge, 0, p.cycle + 1⟩
  | false, some _ =>
    if p.left = 0 then .next ⟨p.unit.deliver, 0, p.cycle + 1⟩ else .next ⟨p.unit, p.left - 1, p.cycle + 1⟩
  | false, none => if pins.cmdValid then p.accept pins.command else .next ⟨p.unit, 0, p.cycle + 1⟩

/-- A run of clock edges. -/
def Port.run : List Pins → Port → Host.Outcome Port Fault Refusal
  | [], p => .next p
  | pins :: more, p =>
    match p.edge pins with
    | .next q => Port.run more q
    | .fault f => .fault f
    | .refused r => .refused r

end Sys2Proof.Machine
end

