-- ==== Sys2Proof/Safety.lean ====
section
/-! DEFINITION. What the statements are said in: the invariant of every run, what the host can observe, which checks
decide a command's status, and a run with no rejection. -/

namespace Sys2Proof.Machine

/-- What holds after reset and after every step. -/
structure State.Inv (s : State) : Prop where
  /-- The storage is in its canonical form. -/
  canonical : s.planes.wf
  /-- Every word listed is one of the `32*NBLK_MAX` words of the storage (20_memory.md R36). -/
  inStorage : ∀ cell ∈ s.planes, cell.1 < 32 * s.nblkMax.toNat
  /-- `1 <= NBLK_MAX` (00_scope.md R7). -/
  capacityPos : 1 ≤ s.nblkMax.toNat
  /-- A configured grid has a block and fits in the storage (10_state.md R17). -/
  grid : s.configured = true → 1 ≤ s.bw ∧ 1 ≤ s.bh ∧ s.bw * s.bh ≤ s.nblkMax.toNat
  /-- With no grid the geometry is 0 (10_state.md R17) and the mode is that of reset (R19). -/
  noGrid : s.configured = false → s.cfgBw = 0 ∧ s.cfgBh = 0 ∧ s.mode = .pbc
  /-- A clear record holds no code (10_state.md R20, R21, R32). -/
  clearRecord : s.err = false → s.errcode = 0
  /-- A set record holds one of the codes 1 to 7 (10_state.md R21). -/
  setRecord : s.err = true → 1 ≤ s.errcode.toNat ∧ s.errcode.toNat ≤ 7

/-- Two states the host cannot tell apart: they agree on everything but the planes, and, if there is a grid, on every
plane of the blocks in use (10_state.md R25, R26). -/
structure State.SameToHost (s t : State) : Prop where
  rest : t = { s with planes := t.planes }
  planesInUse : s.configured = true → ∀ a, a < 32 * s.nblk → t.planes.read a = s.planes.read a

/-- One of the checks of 60_exceptions.md R103: the code it reports, and whether it fails. -/
structure Check where
  code : Rejection
  fails : Bool

/-- "the first check in this order that fails decides it" (60_exceptions.md R103). -/
def firstFailing : List Check → Status
  | [] => .ok
  | c :: more => if c.fails then .rejected c.code else firstFailing more

/-- `E_STATE` of a grid command: no grid. -/
def checkGrid (s : State) : Check := ⟨.state, !s.configured⟩

/-- `E_PIXEL`: `0 <= x < 8*CFG_BW` and `0 <= y < 8*CFG_BH` does not hold. -/
def checkPixel (x y : Word32) (s : State) : Check :=
  ⟨.pixel, decide (¬ (0 ≤ x.toInt ∧ x.toInt < 8 * s.cfgBw.toNat ∧ 0 ≤ y.toInt ∧ y.toInt < 8 * s.cfgBh.toNat))⟩

/-- `E_BLOCK`: `0 <= bx < CFG_BW` and `0 <= by < CFG_BH` does not hold. -/
def checkBlock (bx byy : Word32) (s : State) : Check :=
  ⟨.block, decide (¬ (0 ≤ bx.toInt ∧ bx.toInt < s.cfgBw.toNat ∧ 0 ≤ byy.toInt ∧ byy.toInt < s.cfgBh.toNat))⟩

/-- `E_DEPTH`: `0 <= d < 32` does not hold. -/
def checkDepth (depth : Word32) : Check := ⟨.depth, decide (¬ (0 ≤ depth.toInt ∧ depth.toInt < 32))⟩

/-- The table of 60_exceptions.md R103, after decode. -/
def checksOf (i : Instr) (s : State) : List Check :=
  match i with
  | .config w h =>
    [⟨.state, s.configured⟩,
     ⟨.dim, decide (w.toInt ≤ 8 ∨ h.toInt ≤ 8)⟩,
     ⟨.capacity, decide ((s.nblkMax.toNat : Int) < (w.toInt - 1) / 8 * ((h.toInt - 1) / 8))⟩]
  | .inrange _ _ | .getbw | .getbh | .tocgc | .topbc => [checkGrid s]
  | .setcolor x y _ | .getcolor x y => [checkGrid s, checkPixel x y s]
  | .getplane bx byy d | .setplane bx byy d _ => [checkGrid s, checkBlock bx byy s, checkDepth d]
  | .rdstat | .clrerr | .getcap => []

/-- The state a rejected command leaves: the sticky record, the response, and nothing else (60_exceptions.md R102,
R104). -/
def State.rejectedWith (e : Rejection) (s : State) : State :=
  { s with
    err := true
    errcode := if s.err = true then s.errcode else e.code
    inProgress := some ⟨.rejected e, 0⟩ }

/-- The state a command leaves that completes with `OK` and changes nothing: its response waits to be delivered. -/
def State.answered (result : BitVec 64) (s : State) : State := { s with inProgress := some ⟨.ok, result⟩ }

/-- A run is safe when no command of it was rejected: "A model should treat STATUS ≠ OK as the claim-breaking outcome"
(92_eei_decisions.md D8). -/
def State.AllAccepted (s : State) : Prop := ∀ r ∈ s.responses, r.status = .ok

/-- The commands of a list applied one after another, each by R13's `step(state, command)`: what it performs, and the
response delivered (00_scope.md R13, 20_memory.md R45). -/
def applyAll : List Command → State → Result
  | [], s => .next s
  | c :: cs, s =>
    match perform c s with
    | .next t => applyAll cs t.deliver
    | .fault r => .fault r
    | .refused r => .refused r

/-- Whether a command can write the pixel `(x, y)`: a SETCOLOR of it, a SETPLANE of its block, or a transform
(41_pixel_codec.md R78). CONFIG, which writes every pixel, is rejected on a grid. -/
def writesPixel (x y : Word32) (c : Command) : Prop :=
  match decode c with
  | .ok (.setcolor x' y' _) => x' = x ∧ y' = y
  | .ok (.setplane bx byy _ _) => bx.toInt = x.toInt / 8 ∧ byy.toInt = y.toInt / 8
  | .ok .tocgc | .ok .topbc => True
  | _ => False

/-- The unit idle, with exactly these commands waiting. -/
def State.Waiting (s : State) (cs : List Command) : Prop := s.inProgress = none ∧ s.inputs = cs.map .command

end Sys2Proof.Machine
end

