-- ==== Sys2Proof/Certificates/Slice0/Obligations.lean ====
section
/-! DEFINITION. The statements about the BPBS: what each command does on every path, what the error record and the
lifecycle promise over all commands, what every step keeps, what the host can and cannot see, and how the port, the
decoder and the assembler stand to the machine. -/

open Sys2Proof Sys2Proof.Machine

/-! ### Encoding -/

/-- 30_encoding.md R54: each row of the opcode map, with the operands its ports carry. -/
def Obligations.OpcodeMapDecodes : Prop :=
  ∀ (a b c : Word32) (d : Plane),
    decode ⟨0x00000001, a, b, c, d⟩ = .ok (.config a b) ∧
    decode ⟨0x00000002, a, b, c, d⟩ = .ok (.inrange a b) ∧
    decode ⟨0x00000003, a, b, c, d⟩ = .ok .getbw ∧
    decode ⟨0x00000004, a, b, c, d⟩ = .ok .getbh ∧
    decode ⟨0x00000005, a, b, c, d⟩ = .ok (.setcolor a b c) ∧
    decode ⟨0x00000006, a, b, c, d⟩ = .ok (.getcolor a b) ∧
    decode ⟨0x00000007, a, b, c, d⟩ = .ok (.getplane a b c) ∧
    decode ⟨0x00000008, a, b, c, d⟩ = .ok (.setplane a b c d) ∧
    decode ⟨0x00000009, a, b, c, d⟩ = .ok .tocgc ∧
    decode ⟨0x0000000A, a, b, c, d⟩ = .ok .topbc ∧
    decode ⟨0x0000000B, a, b, c, d⟩ = .ok .rdstat ∧
    decode ⟨0x0000000C, a, b, c, d⟩ = .ok .clrerr ∧
    decode ⟨0x0000000D, a, b, c, d⟩ = .ok .getcap

/-- 30_encoding.md R51: a command word decodes exactly when `RSVD = 0` and `OP` is one of the thirteen values; the
refusal names the field that is wrong, `RSVD` first. -/
def Obligations.DecodeSucceedsExactlyOnLegalWords : Prop :=
  ∀ c : Command,
    ((∃ i, decode c = .ok i) ↔
      c.cmd.extractLsb' 8 24 = 0 ∧
      c.cmd.extractLsb' 0 8 ∈
        ([0x01, 0x02, 0x03, 0x04, 0x05, 0x06, 0x07, 0x08, 0x09, 0x0A, 0x0B, 0x0C, 0x0D] : List Opcode)) ∧
    (decode c = .error .reservedBits ↔ c.cmd.extractLsb' 8 24 ≠ 0)

/-- 30_encoding.md R51, R52, R58: a command decodes to `i` exactly when its word is `i`'s and each port `i` uses
carries what the encoder puts there; an ignored port may carry anything. -/
def Obligations.DecodeAndEncodeAgree : Prop :=
  ∀ (c : Command) (i : Instr),
    decode c = .ok i ↔
      c.cmd = (encode i).cmd ∧
      (1 ≤ portsUsed i → c.a = (encode i).a) ∧ (2 ≤ portsUsed i → c.b = (encode i).b) ∧
      (3 ≤ portsUsed i → c.c = (encode i).c) ∧ (4 ≤ portsUsed i → c.d = (encode i).d)

/-! ### Transactions -/

/-- 00_scope.md R13, 20_memory.md R44: when no command is in progress and the host's next input is a command that
decodes to `i`, a step is the meaning of `i` and then the delivery of its response. The input list is the model's own
(log entry 4). -/
def Obligations.StepRunsTheDecodedCommand : Prop :=
  ∀ (s : State) (c : Command) (rest : List HostInput) (i : Instr),
    s.inProgress = none → s.inputs = .command c :: rest → decode c = .ok i →
      step s =
        match exec i { s with inputs := rest } with
        | .next t => .next t.deliver
        | .fault f => .fault f
        | .refused r => .refused r

/-- 70_reset_and_hazards.md R123: a step that accepts a command leaves no command in progress and appends exactly one
response, which is the one the command's meaning answers. -/
def Obligations.EachCommandIsAnsweredOnce : Prop :=
  ∀ (s t : State) (c : Command) (rest : List HostInput),
    s.inProgress = none → s.inputs = .command c :: rest → step s = .next t →
      t.inputs = rest ∧ t.inProgress = none ∧
      ∃ u r, perform c { s with inputs := rest } = .next u ∧ u.inProgress = some r ∧ t.responses = s.responses ++ [r]

/-- 30_encoding.md R56: every reserved command word is rejected with `E_ILLEGAL`, whatever the state and the ports:
one response, the error record, and no other change. -/
def Obligations.ReservedWordsAreRejected : Prop :=
  ∀ (s : State) (c : Command) (rest : List HostInput),
    s.inProgress = none → s.inputs = .command c :: rest →
    (c.cmd.extractLsb' 8 24 ≠ 0 ∨ c.cmd.extractLsb' 0 8 = 0x00#8 ∨ 0x0E#8 ≤ c.cmd.extractLsb' 0 8) →
      step s = .next { s with
        inputs := rest
        err := true
        errcode := if s.err = true then s.errcode else 1
        responses := s.responses ++ [⟨.rejected .illegal, 0⟩] }

/-- 60_exceptions.md R114: with no host input and no command in progress the unit keeps its whole state. -/
def Obligations.IdleUnitKeepsItsState : Prop :=
  ∀ s : State, s.inputs = [] → s.inProgress = none → step s = .next s

/-! ### Reset -/

/-- 10_state.md R32: the values right after reset. -/
def Obligations.ResetValues : Prop :=
  State.reset.cfgBw = 0 ∧ State.reset.cfgBh = 0 ∧ State.reset.configured = false ∧ State.reset.mode = .pbc ∧
  State.reset.err = false ∧ State.reset.errcode = 0 ∧ State.reset.inProgress = none

/-- 70_reset_and_hazards.md R116: a reset input gives every element its reset value and writes no plane, from every
state; the parameter and the responses delivered so far stay. -/
def Obligations.ResetInputResets : Prop :=
  ∀ (s : State) (rest : List HostInput), s.inputs = .reset :: rest →
    step s = .next {
      planes := s.planes, cfgBw := 0, cfgBh := 0, configured := false, mode := .pbc, err := false, errcode := 0,
      inProgress := none, nblkMax := s.nblkMax, inputs := rest, responses := s.responses }

/-- 70_reset_and_hazards.md R117: a command that reset cuts delivers no response, and the state after is that of reset,
whatever the command was: a command word that the state holds in progress, or one accepted and then cut. -/
def Obligations.ResetAbandonsTheCommandInProgress : Prop :=
  (∀ (s : State) (rest : List HostInput) (r : Response),
    s.inProgress = some r → s.inputs = .reset :: rest →
      ∃ t, step s = .next t ∧ t.responses = s.responses ∧ t.inProgress = none ∧ t.configured = false) ∧
  (∀ (s : State) (c : Command) (rest : List HostInput),
    s.Inv → s.inProgress = none → s.inputs = .commandCutByReset c :: rest →
      ∃ t, step s = .next t ∧ t.responses = s.responses ∧ t.inputs = rest ∧ t.inProgress = none ∧
        t.configured = false ∧ t.cfgBw = 0 ∧ t.cfgBh = 0 ∧ t.mode = .pbc ∧ t.err = false ∧ t.errcode = 0)

/-! ### Rejection and the error record -/

/-- 60_exceptions.md R101: the value of each status code. -/
def Obligations.StatusCodeValues : Prop :=
  Status.ok.code = 0 ∧ (Status.rejected .illegal).code = 1 ∧ (Status.rejected .state).code = 2 ∧
  (Status.rejected .dim).code = 3 ∧ (Status.rejected .capacity).code = 4 ∧ (Status.rejected .pixel).code = 5 ∧
  (Status.rejected .block).code = 6 ∧ (Status.rejected .depth).code = 7

/-- 60_exceptions.md R102, R100: whatever the command word, a rejection writes the error record and the response, with
a zero result, and nothing else. -/
def Obligations.RejectionWritesOnlyTheErrorRecord : Prop :=
  ∀ (c : Command) (s t : State) (e : Rejection) (result : BitVec 64),
    perform c s = .next t → t.inProgress = some ⟨.rejected e, result⟩ → t = s.rejectedWith e

/-- 10_state.md R20, 60_exceptions.md R104: a command that completes leaves the error record as it was, unless it is
CLRERR. -/
def Obligations.SuccessKeepsTheErrorRecord : Prop :=
  ∀ (i : Instr) (s t : State) (result : BitVec 64),
    exec i s = .next t → t.inProgress = some ⟨.ok, result⟩ → i ≠ .clrerr → t.err = s.err ∧ t.errcode = s.errcode

/-- 60_exceptions.md R103: every command answers, and its status is that of the first check of the table's row that
fails, or `OK`; before all of them, a command that does not decode is rejected with `E_ILLEGAL`. -/
def Obligations.StatusFollowsTheCheckOrder : Prop :=
  (∀ (i : Instr) (s : State), s.Inv →
    ∃ t result, exec i s = .next t ∧ t.inProgress = some ⟨firstFailing (checksOf i s), result⟩) ∧
  ∀ (c : Command) (why : DecodeError) (s : State), decode c = .error why →
    perform c s = .next (s.rejectedWith .illegal)

/-! ### Whole-machine rules -/

/-- The invariant holds after reset, for every `NBLK_MAX`. -/
def Obligations.ResetMeetsTheInvariant : Prop := State.reset.Inv

/-- 10_state.md R17, R19, R21, 20_memory.md R36: every step keeps the invariant: the storage canonical and inside the
unit, the geometry legal, the record clear or holding a code of 1 to 7. -/
def Obligations.StepKeepsTheInvariant : Prop :=
  ∀ s t : State, s.Inv → step s = .next t → t.Inv

/-- 00_scope.md R13, 60_exceptions.md R98: in every state a run can reach a step answers a next state: it never stops,
whatever the host does. -/
def Obligations.StepNeverStops : Prop := ∀ s : State, s.Inv → ∃ t, step s = .next t

/-- 70_reset_and_hazards.md R123, R126: a run of commands ends with each of them answered, in order, one response each,
and no command in progress. -/
def Obligations.RunAnswersEveryCommand : Prop :=
  ∀ (cs : List Command) (s : State), s.Inv → s.Waiting cs →
    ∃ t rs, Host.Core.run Sys2Proof.core cs.length s = .next t ∧ t.Waiting [] ∧
      t.responses = s.responses ++ rs ∧ rs.length = cs.length

/-- 20_memory.md R45, 70_reset_and_hazards.md R126: the state after a run of commands is the result of applying each
command, in acceptance order, to the state the one before it left; nothing of a later command reaches an earlier one. -/
def Obligations.RunAppliesCommandsInOrder : Prop :=
  ∀ (cs : List Command) (s : State), s.Inv → s.Waiting cs →
    Host.Core.run Sys2Proof.core cs.length s = applyAll cs { s with inputs := [] }

/-- 10_state.md R25, R26: the host cannot learn what stands in blocks outside the grid, or in any block while there is
no grid. Two states that differ only there answer alike and stay alike, whatever the host does. So no response rests on
what an unwritten plane reads as (log entry 2). -/
def Obligations.UnusedPlanesAreNotObservable : Prop :=
  ∀ s s' t : State, s.SameToHost t → step s = .next s' →
    ∃ t', step t = .next t' ∧ s'.SameToHost t' ∧ t'.responses = s'.responses

/-- 10_state.md R17, R18: no command changes the geometry of a configured grid, or removes the grid. -/
def Obligations.ConfiguredGridIsFixed : Prop :=
  ∀ (c : Command) (s t : State), s.configured = true → perform c s = .next t →
    t.configured = true ∧ t.cfgBw = s.cfgBw ∧ t.cfgBh = s.cfgBh

/-- 10_state.md R31: no step changes `NBLK_MAX`. -/
def Obligations.CapacityNeverChanges : Prop :=
  ∀ s t : State, step s = .next t → t.nblkMax = s.nblkMax

/-- 10_state.md R25: no command writes a plane of a block outside the grid as it stands after the command. -/
def Obligations.BlocksOutsideTheGridAreNotWritten : Prop :=
  ∀ (c : Command) (s t : State), perform c s = .next t →
    ∀ a, 32 * (t.cfgBw.toNat * t.cfgBh.toNat) ≤ a → t.planes.read a = s.planes.read a

/-- 10_state.md R19: after a command that completes `MODE` is CGC if it was TOCGC, PBC if it was TOPBC or CONFIG, and
otherwise what it was; a rejected command does not change it. -/
def Obligations.ModeIsSetByTransformsAndConfig : Prop :=
  ∀ (i : Instr) (s t : State) (r : Response), exec i s = .next t → t.inProgress = some r →
    (r.status = .ok → (i = .tocgc → t.mode = .cgc) ∧ (i = .topbc → t.mode = .pbc) ∧
      (∀ w h, i = .config w h → t.mode = .pbc)) ∧
    (r.status ≠ .ok ∨ (i ≠ .tocgc ∧ i ≠ .topbc ∧ ∀ w h, i ≠ .config w h) → t.mode = s.mode)

/-- 10_state.md R19, 41_pixel_codec.md R75: `MODE` gates nothing. In the other mode every command answers too; every
command but RDSTAT gives the same response and leaves the same state but for `MODE`. -/
def Obligations.ModeGatesNothing : Prop :=
  ∀ (i : Instr) (s t : State) (mode : CodingMode), exec i s = .next t →
    ∃ t', exec i { s with mode := mode } = .next t' ∧ (i ≠ .rdstat → t' = { t with mode := t'.mode })

/-- 20_memory.md R48: SETCOLOR and SETPLANE change no word of another block than the one they address; TOCGC and TOPBC
make each block of the grid what they make of it in any grid of the same geometry in which it holds the same planes. -/
def Obligations.BlocksAreIndependent : Prop :=
  (∀ (s t : State) (x y : Word32) (color : Color), s.inRange x y = true → exec (.setcolor x y color) s = .next t →
    ∀ a, a < 32 * (y.toInt.toNat / 8 * s.cfgBw.toNat + x.toInt.toNat / 8) ∨
      32 * (y.toInt.toNat / 8 * s.cfgBw.toNat + x.toInt.toNat / 8) + 32 ≤ a → t.planes.read a = s.planes.read a) ∧
  (∀ (s t : State) (bx byy d : Word32) (plane : Plane), exec (.setplane bx byy d plane) s = .next t →
    ∀ a, a < 32 * (byy.toInt.toNat * s.cfgBw.toNat + bx.toInt.toNat) ∨
      32 * (byy.toInt.toNat * s.cfgBw.toNat + bx.toInt.toNat) + 32 ≤ a → t.planes.read a = s.planes.read a) ∧
  (∀ (i : Instr) (s s' t t' : State) (b : Nat), i = .tocgc ∨ i = .topbc →
    s'.configured = s.configured → s'.cfgBw = s.cfgBw → s'.cfgBh = s.cfgBh →
    exec i s = .next t → exec i s' = .next t' →
    (∀ d, d < 32 → s'.plane b d = s.plane b d) → ∀ d, d < 32 → t'.plane b d = t.plane b d)

/-! ### Grid -/

/-- 40_grid.md R62, R63, R65: CONFIG on every path: the three rejections in their order, and the grid it constructs,
with every plane of the blocks in use zero and every other element as it was. -/
def Obligations.ConfigConstructsTheGrid : Prop :=
  ∀ (w h : Word32) (s : State),
    (s.configured = true → exec (.config w h) s = .next (s.rejectedWith .state)) ∧
    (s.configured = false → ¬ (w.toInt > 8 ∧ h.toInt > 8) →
      exec (.config w h) s = .next (s.rejectedWith .dim)) ∧
    (s.configured = false → w.toInt > 8 → h.toInt > 8 →
      (w.toInt - 1) / 8 * ((h.toInt - 1) / 8) > s.nblkMax.toNat →
      exec (.config w h) s = .next (s.rejectedWith .capacity)) ∧
    (s.configured = false → w.toInt > 8 → h.toInt > 8 →
      (w.toInt - 1) / 8 * ((h.toInt - 1) / 8) ≤ s.nblkMax.toNat →
      ∃ t, exec (.config w h) s = .next t ∧
        (t.cfgBw.toNat : Int) = (w.toInt - 1) / 8 ∧ (t.cfgBh.toNat : Int) = (h.toInt - 1) / 8 ∧
        (∀ b d, b < t.cfgBw.toNat * t.cfgBh.toNat → d < 32 → t.plane b d = 0) ∧
        (∀ a, 32 * (t.cfgBw.toNat * t.cfgBh.toNat) ≤ a → t.planes.read a = s.planes.read a) ∧
        t = { s with
          planes := t.planes, cfgBw := t.cfgBw, cfgBh := t.cfgBh, configured := true, mode := .pbc,
          inProgress := some ⟨.ok, 0⟩ })

/-- 40_grid.md R64: the effective dimension is the largest multiple of 8 strictly below the requested one, 1 to 8
below it, 8 exactly when the request is a multiple of 8, and the grid has at least one block each way. -/
def Obligations.EffectiveDimensionsAreTruncated : Prop :=
  ∀ (w h : Word32) (s t : State), exec (.config w h) s = .next t → t.inProgress = some ⟨.ok, 0⟩ →
    ∀ (requested : Int) (blocks : Nat),
      (requested = w.toInt ∧ blocks = t.bw) ∨ (requested = h.toInt ∧ blocks = t.bh) →
        (blocks : Int) = (requested - 1) / 8 ∧ 1 ≤ blocks ∧
        1 ≤ requested - 8 * blocks ∧ requested - 8 * blocks ≤ 8 ∧
        (requested - 8 * blocks = 8 ↔ requested % 8 = 0) ∧
        ∀ k : Int, 8 * k < requested → 8 * k ≤ 8 * blocks

/-- 40_grid.md R67, 20_memory.md R38: INRANGE on both paths; an out-of-range coordinate is answered 0. -/
def Obligations.InrangeTestsTheCoordinate : Prop :=
  ∀ (x y : Word32) (s : State),
    (s.configured = false → exec (.inrange x y) s = .next (s.rejectedWith .state)) ∧
    (s.configured = true →
      exec (.inrange x y) s = .next (s.answered
        (if 0 ≤ x.toInt ∧ x.toInt < 8 * s.cfgBw.toNat ∧ 0 ≤ y.toInt ∧ y.toInt < 8 * s.cfgBh.toNat then 1 else 0)))

/-- 40_grid.md R68, R69, R70: GETBW and GETBH on both paths, and GETCAP on its one; a geometry read is at least 1. -/
def Obligations.GeometryQueriesRead : Prop :=
  ∀ s : State,
    (s.configured = false → exec .getbw s = .next (s.rejectedWith .state)) ∧
    (s.configured = true → exec .getbw s = .next (s.answered (s.cfgBw.zeroExtend 64))) ∧
    (s.configured = false → exec .getbh s = .next (s.rejectedWith .state)) ∧
    (s.configured = true → exec .getbh s = .next (s.answered (s.cfgBh.zeroExtend 64))) ∧
    exec .getcap s = .next (s.answered (s.nblkMax.zeroExtend 64)) ∧
    (s.Inv → s.configured = true → 1 ≤ (s.cfgBw.zeroExtend 64).toNat ∧ 1 ≤ (s.cfgBh.zeroExtend 64).toNat)

/-- 40_grid.md R65, 70_reset_and_hazards.md R118, 20_memory.md R43: once a CONFIG has succeeded every later CONFIG is
rejected, whatever commands run in between, until reset. -/
def Obligations.ConfigSucceedsAtMostOnce : Prop :=
  ∀ (cs : List Command) (w h : Word32) (s t : State), s.configured = true → s.Waiting cs →
    Host.Core.run Sys2Proof.core cs.length s = .next t →
      exec (.config w h) t = .next (t.rejectedWith .state)

/-! ### Pixels -/

/-- 41_pixel_codec.md R73, R76, 20_memory.md R37: SETCOLOR on every path. It stores to the 32 words of the pixel's
block, in each of them at the pixel's position, and changes no other bit and no other element. -/
def Obligations.SetcolorWritesThePixel : Prop :=
  ∀ (x y : Word32) (color : Color) (s : State),
    (s.configured = false → exec (.setcolor x y color) s = .next (s.rejectedWith .state)) ∧
    (s.configured = true →
      ¬ (0 ≤ x.toInt ∧ x.toInt < 8 * s.cfgBw.toNat ∧ 0 ≤ y.toInt ∧ y.toInt < 8 * s.cfgBh.toNat) →
      exec (.setcolor x y color) s = .next (s.rejectedWith .pixel)) ∧
    (s.Inv → s.configured = true →
      0 ≤ x.toInt ∧ x.toInt < 8 * s.cfgBw.toNat ∧ 0 ≤ y.toInt ∧ y.toInt < 8 * s.cfgBh.toNat →
      ∀ b p, b = y.toInt.toNat / 8 * s.cfgBw.toNat + x.toInt.toNat / 8 →
        p = 8 * (y.toInt.toNat % 8) + x.toInt.toNat % 8 →
        ∃ t, exec (.setcolor x y color) s = .next t ∧
          t = { s with planes := t.planes, inProgress := some ⟨.ok, 0⟩ } ∧
          (∀ d q, d < 32 → q < 64 →
            (t.plane b d).getLsbD q = if q = p then color.getLsbD d else (s.plane b d).getLsbD q) ∧
          ∀ a, a < 32 * b ∨ 32 * b + 32 ≤ a → t.planes.read a = s.planes.read a)

/-- 41_pixel_codec.md R74, R77, 20_memory.md R37: GETCOLOR on every path. Bit `d` of the result is the pixel's bit in
plane `d`, bits 63:32 are 0, and nothing changes. -/
def Obligations.GetcolorReadsThePixel : Prop :=
  ∀ (x y : Word32) (s : State),
    (s.configured = false → exec (.getcolor x y) s = .next (s.rejectedWith .state)) ∧
    (s.configured = true →
      ¬ (0 ≤ x.toInt ∧ x.toInt < 8 * s.cfgBw.toNat ∧ 0 ≤ y.toInt ∧ y.toInt < 8 * s.cfgBh.toNat) →
      exec (.getcolor x y) s = .next (s.rejectedWith .pixel)) ∧
    (s.Inv → s.configured = true →
      0 ≤ x.toInt ∧ x.toInt < 8 * s.cfgBw.toNat ∧ 0 ≤ y.toInt ∧ y.toInt < 8 * s.cfgBh.toNat →
      ∀ b p, b = y.toInt.toNat / 8 * s.cfgBw.toNat + x.toInt.toNat / 8 →
        p = 8 * (y.toInt.toNat % 8) + x.toInt.toNat % 8 →
        ∃ result, exec (.getcolor x y) s = .next (s.answered result) ∧
          (∀ d, d < 32 → result.getLsbD d = (s.plane b d).getLsbD p) ∧
          (∀ d, 32 ≤ d → result.getLsbD d = false))

/-- 41_pixel_codec.md R78: what SETCOLOR wrote GETCOLOR returns, after any commands none of which writes the pixel: none
is a SETCOLOR of it, a SETPLANE of its block, or a transform. -/
def Obligations.SetThenGetReturnsTheColor : Prop :=
  ∀ (x y : Word32) (color : Color) (s t u : State) (cs : List Command), s.Inv →
    exec (.setcolor x y color) s = .next t → t.inProgress = some ⟨.ok, 0⟩ →
    (∀ c ∈ cs, ¬ writesPixel x y c) → applyAll cs t = .next u →
      exec (.getcolor x y) u = .next (u.answered (color.zeroExtend 64))

/-- 41_pixel_codec.md R79: SETCOLOR leaves what every other pixel reads; and on a grid fresh from CONFIG, a value whose
only nonzero bits are in depths `[16,24)` is read back with bits 31:24 and 15:0 zero. -/
def Obligations.SetcolorKeepsOtherPixelsAndChannels : Prop :=
  (∀ (x y x' y' : Word32) (color : Color) (s t : State) (before : BitVec 64), s.Inv → (x', y') ≠ (x, y) →
    exec (.getcolor x' y') s = .next (s.answered before) → exec (.setcolor x y color) s = .next t →
      exec (.getcolor x' y') t = .next (t.answered before)) ∧
  (∀ (w h x y : Word32) (color : Color) (s t u v : State) (result : BitVec 64), s.Inv →
    exec (.config w h) s = .next t → exec (.setcolor x y color) t = .next u → exec (.getcolor x y) u = .next v →
    v.inProgress = some ⟨.ok, result⟩ → channel color 0 = 0 → channel color 1 = 0 → channel color 3 = 0 →
      result.extractLsb' 0 16 = 0 ∧ result.extractLsb' 24 8 = 0)

/-- 42_bitplane.md R85: the plane view and the pixel view read the same storage bit, in every state. -/
def Obligations.PlaneAndPixelViewsAgree : Prop :=
  ∀ (x y bx byy depth : Word32) (s : State), s.Inv → s.configured = true →
    0 ≤ x.toInt ∧ x.toInt < 8 * s.cfgBw.toNat ∧ 0 ≤ y.toInt ∧ y.toInt < 8 * s.cfgBh.toNat →
    bx.toInt = x.toInt / 8 → byy.toInt = y.toInt / 8 → 0 ≤ depth.toInt ∧ depth.toInt < 32 →
      ∃ pixel plane, exec (.getcolor x y) s = .next (s.answered pixel) ∧
        exec (.getplane bx byy depth) s = .next (s.answered plane) ∧
        pixel.getLsbD depth.toInt.toNat = plane.getLsbD (8 * (y.toInt.toNat % 8) + x.toInt.toNat % 8)

/-! ### Planes -/

/-- 42_bitplane.md R81, 20_memory.md R34, R39: GETPLANE on every path: block before depth, and the plane word. -/
def Obligations.GetplaneReadsThePlane : Prop :=
  ∀ (bx byy depth : Word32) (s : State),
    (s.configured = false → exec (.getplane bx byy depth) s = .next (s.rejectedWith .state)) ∧
    (s.configured = true →
      ¬ (0 ≤ bx.toInt ∧ bx.toInt < s.cfgBw.toNat ∧ 0 ≤ byy.toInt ∧ byy.toInt < s.cfgBh.toNat) →
      exec (.getplane bx byy depth) s = .next (s.rejectedWith .block)) ∧
    (s.configured = true →
      0 ≤ bx.toInt ∧ bx.toInt < s.cfgBw.toNat ∧ 0 ≤ byy.toInt ∧ byy.toInt < s.cfgBh.toNat →
      ¬ (0 ≤ depth.toInt ∧ depth.toInt < 32) →
      exec (.getplane bx byy depth) s = .next (s.rejectedWith .depth)) ∧
    (s.Inv → s.configured = true →
      0 ≤ bx.toInt ∧ bx.toInt < s.cfgBw.toNat ∧ 0 ≤ byy.toInt ∧ byy.toInt < s.cfgBh.toNat →
      0 ≤ depth.toInt ∧ depth.toInt < 32 →
      exec (.getplane bx byy depth) s = .next (s.answered
        (s.planes.read (32 * (byy.toInt.toNat * s.cfgBw.toNat + bx.toInt.toNat) + depth.toInt.toNat))))

/-- 42_bitplane.md R82, 20_memory.md R34, R39: SETPLANE on every path. It stores the one plane word it addresses and
changes no other word and no other element. -/
def Obligations.SetplaneWritesThePlane : Prop :=
  ∀ (bx byy depth : Word32) (plane : Plane) (s : State),
    (s.configured = false → exec (.setplane bx byy depth plane) s = .next (s.rejectedWith .state)) ∧
    (s.configured = true →
      ¬ (0 ≤ bx.toInt ∧ bx.toInt < s.cfgBw.toNat ∧ 0 ≤ byy.toInt ∧ byy.toInt < s.cfgBh.toNat) →
      exec (.setplane bx byy depth plane) s = .next (s.rejectedWith .block)) ∧
    (s.configured = true →
      0 ≤ bx.toInt ∧ bx.toInt < s.cfgBw.toNat ∧ 0 ≤ byy.toInt ∧ byy.toInt < s.cfgBh.toNat →
      ¬ (0 ≤ depth.toInt ∧ depth.toInt < 32) →
      exec (.setplane bx byy depth plane) s = .next (s.rejectedWith .depth)) ∧
    (s.Inv → s.configured = true →
      0 ≤ bx.toInt ∧ bx.toInt < s.cfgBw.toNat ∧ 0 ≤ byy.toInt ∧ byy.toInt < s.cfgBh.toNat →
      0 ≤ depth.toInt ∧ depth.toInt < 32 →
      ∃ t, exec (.setplane bx byy depth plane) s = .next t ∧
        t = { s with planes := t.planes, inProgress := some ⟨.ok, 0⟩ } ∧
        ∀ a, t.planes.read a =
          if a = 32 * (byy.toInt.toNat * s.cfgBw.toNat + bx.toInt.toNat) + depth.toInt.toNat then plane
          else s.planes.read a)

/-- 42_bitplane.md R84, 20_memory.md R34, R35: after SETPLANE, GETPLANE of the same block and depth returns the word
stored, and GETPLANE of any other block or depth returns what it returned before. -/
def Obligations.PlaneWritesAreReadBack : Prop :=
  ∀ (bx byy d bx' byy' d' : Word32) (plane before : Plane) (s t : State), s.Inv →
    exec (.setplane bx byy d plane) s = .next t → t.inProgress = some ⟨.ok, 0⟩ →
      exec (.getplane bx byy d) t = .next (t.answered plane) ∧
      ((bx', byy', d') ≠ (bx, byy, d) → exec (.getplane bx' byy' d') s = .next (s.answered before) →
        exec (.getplane bx' byy' d') t = .next (t.answered before))

/-! ### Transforms -/

/-- 43_code_transform.md R86, R87: TOCGC on both paths. In every block of the grid plane 0 stays and every other plane
becomes itself XOR the plane below it, as both were before; `MODE` becomes CGC; nothing else changes. -/
def Obligations.TocgcRunsTheForwardCascade : Prop :=
  ∀ s : State,
    (s.configured = false → exec .tocgc s = .next (s.rejectedWith .state)) ∧
    (s.Inv → s.configured = true →
      ∃ t, exec .tocgc s = .next t ∧
        t = { s with planes := t.planes, mode := .cgc, inProgress := some ⟨.ok, 0⟩ } ∧
        (∀ b, b < s.cfgBw.toNat * s.cfgBh.toNat →
          t.plane b 0 = s.plane b 0 ∧
          ∀ d, 1 ≤ d → d ≤ 31 → t.plane b d = s.plane b d ^^^ s.plane b (d - 1)) ∧
        ∀ a, 32 * (s.cfgBw.toNat * s.cfgBh.toNat) ≤ a → t.planes.read a = s.planes.read a)

/-- 43_code_transform.md R88, R89: TOPBC on both paths. In every block of the grid plane 0 stays and every other plane
becomes itself XOR the restored plane below it; `MODE` becomes PBC; nothing else changes. -/
def Obligations.TopbcRunsTheInverseCascade : Prop :=
  ∀ s : State,
    (s.configured = false → exec .topbc s = .next (s.rejectedWith .state)) ∧
    (s.Inv → s.configured = true →
      ∃ t, exec .topbc s = .next t ∧
        t = { s with planes := t.planes, mode := .pbc, inProgress := some ⟨.ok, 0⟩ } ∧
        (∀ b, b < s.cfgBw.toNat * s.cfgBh.toNat →
          t.plane b 0 = s.plane b 0 ∧
          ∀ d, 1 ≤ d → d ≤ 31 → t.plane b d = s.plane b d ^^^ t.plane b (d - 1)) ∧
        ∀ a, 32 * (s.cfgBw.toNat * s.cfgBh.toNat) ≤ a → t.planes.read a = s.planes.read a)

/-- 43_code_transform.md R91: from every grid state TOCGC then TOPBC, and TOPBC then TOCGC, leave the storage unchanged
as data, in every block and every depth; `MODE` is that of the last command. -/
def Obligations.TransformsAreInverse : Prop :=
  ∀ s : State, s.Inv → s.configured = true →
    (∃ t u, exec .tocgc s = .next t ∧ exec .topbc t = .next u ∧ u.planes = s.planes ∧ u.mode = .pbc) ∧
    (∃ t u, exec .topbc s = .next t ∧ exec .tocgc t = .next u ∧ u.planes = s.planes ∧ u.mode = .cgc)

/-- 43_code_transform.md R90: what a transform does to each pixel's value: `v ^ (v << 1)` for TOCGC, and the XOR of
`g << k` over `k` in 0..31 for TOPBC. -/
def Obligations.TransformsActPixelByPixel : Prop :=
  ∀ (x y : Word32) (v : Color) (s : State), s.Inv →
    exec (.getcolor x y) s = .next (s.answered (v.zeroExtend 64)) →
    (∃ t, exec .tocgc s = .next t ∧
      exec (.getcolor x y) t = .next (t.answered ((v ^^^ (v <<< 1)).zeroExtend 64))) ∧
    (∃ t, exec .topbc s = .next t ∧
      exec (.getcolor x y) t = .next (t.answered
        (((List.range 32).foldl (fun acc k => acc ^^^ (v <<< k)) (0 : Color)).zeroExtend 64)))

/-- 43_code_transform.md R92: neither transform is its own inverse: the rule's two examples, at any pixel of any
grid. -/
def Obligations.NeitherTransformIsSelfInverse : Prop :=
  ∀ (x y : Word32) (s : State), s.Inv →
    (exec (.getcolor x y) s = .next (s.answered 4) →
      ∃ t u, exec .tocgc s = .next t ∧ exec (.getcolor x y) t = .next (t.answered 0x0000000C) ∧
        exec .tocgc t = .next u ∧ exec (.getcolor x y) u = .next (u.answered 0x00000014)) ∧
    (exec (.getcolor x y) s = .next (s.answered 1) →
      ∃ t u, exec .topbc s = .next t ∧ exec (.getcolor x y) t = .next (t.answered 0xFFFFFFFF) ∧
        exec .topbc t = .next u ∧ exec (.getcolor x y) u = .next (u.answered 0x55555555))

/-! ### Status -/

/-- 44_status.md R96, 10_state.md R23: RDSTAT answers the status word, bit by bit, and changes nothing. -/
def Obligations.RdstatReadsTheStatusWord : Prop :=
  ∀ s : State, ∃ word, exec .rdstat s = .next (s.answered word) ∧
    word.getLsbD 0 = s.configured ∧ word.getLsbD 1 = decide (s.mode = .cgc) ∧ word.getLsbD 2 = s.err ∧
    word.getLsbD 3 = false ∧ word.extractLsb' 4 4 = s.errcode ∧ word.extractLsb' 8 56 = 0

/-- 44_status.md R97: CLRERR clears the record and changes nothing else. -/
def Obligations.ClrerrClearsTheRecord : Prop :=
  ∀ s : State, exec .clrerr s = .next { s with err := false, errcode := 0, inProgress := some ⟨.ok, 0⟩ }

/-! ### Repetition (20_memory.md R43) -/

/-- 20_memory.md R43: the seven reading commands change no state when they succeed, and repeating one gives the same
response. -/
def Obligations.ReadersChangeNothing : Prop :=
  ∀ (i : Instr) (s t : State) (result : BitVec 64),
    ((∃ x y, i = .getcolor x y) ∨ (∃ bx byy d, i = .getplane bx byy d) ∨ (∃ x y, i = .inrange x y) ∨
      i = .getbw ∨ i = .getbh ∨ i = .getcap ∨ i = .rdstat) →
    exec i s = .next t → t.inProgress = some ⟨.ok, result⟩ →
      t = s.answered result ∧ exec i t = .next t

/-- 20_memory.md R43: SETCOLOR, SETPLANE and CLRERR are idempotent: repeating one with the same operands leaves the
same state. -/
def Obligations.WritersAreIdempotent : Prop :=
  ∀ (i : Instr) (s t : State) (result : BitVec 64),
    ((∃ x y color, i = .setcolor x y color) ∨ (∃ bx byy d plane, i = .setplane bx byy d plane) ∨ i = .clrerr) →
    s.Inv → exec i s = .next t → t.inProgress = some ⟨.ok, result⟩ → exec i t = .next t

/-! ### Storage -/

/-- 40_grid.md R65: CONFIG's zeroing is the loop of the pseudocode: on a canonical storage, one write of 0 to each word
below the end of the blocks in use. -/
def Obligations.ZeroingIsTheLoopOfWrites : Prop :=
  ∀ (m : Memory) (n : Nat), m.wf → m.clearBelow n = (List.range n).foldl (fun m a => m.write a 0) m

/-! ### The port -/

/-- 70_reset_and_hazards.md R121: `cmd_ready = 1` exactly when `rst = 0` and no command is in progress. -/
def Obligations.ReadyExactlyWhenIdle : Prop :=
  ∀ (rst : Bool) (p : Port), (p.outputs rst).cmdReady = true ↔ rst = false ∧ p.unit.inProgress = none

/-- 70_reset_and_hazards.md R116, R117: while `rst = 1` the unit drives neither ready nor valid, and the edge puts it in
the state of reset and delivers nothing. -/
def Obligations.PortResetAbandons : Prop :=
  ∀ (pins : Pins) (p : Port), pins.rst = true →
    (p.outputs true).cmdReady = false ∧ (p.outputs true).rspValid = false ∧
    ∃ q, p.edge pins = .next q ∧ q.unit = { p.unit with
      cfgBw := 0, cfgBh := 0, configured := false, mode := .pbc, err := false, errcode := 0, inProgress := none }

/-- 70_reset_and_hazards.md R121, R123, 00_scope.md R13: the port refines the step. A command accepted at an edge, and
`LAT + 1` further edges with `rst = 0` and anything on the other pins, leave the unit in the state one step of the
machine gives; the response is on the port in exactly one of the cycles in between, the one `LAT` cycles after the
acceptance edge. That a cycle is counted from the acceptance edge so is log entry 8. -/
def Obligations.PortRefinesTheStep : Prop :=
  ∀ (p : Port) (c : Command) (u : State) (r : Response) (later : List Pins) (lat : Nat),
    p.unit.inProgress = none → perform c p.unit = .next u → u.inProgress = some r →
    lat = latency c u.nblk → later.length = lat + 1 → (∀ pins ∈ later, pins.rst = false) →
      1 ≤ lat ∧
      (∃ q, Port.run (⟨false, true, c⟩ :: later) p = .next q ∧ step (p.unit.present c) = .next q.unit) ∧
      ∀ k, k ≤ lat → ∃ q, Port.run (⟨false, true, c⟩ :: later.take k) p = .next q ∧
        (q.outputs false).cmdReady = false ∧ ((q.outputs false).rspValid = true ↔ k = lat) ∧
        (k = lat → (q.outputs false).rspStatus = r.status.code ∧ (q.outputs false).rspResult = r.result)

/-! ### The assembler -/

/-- 30_encoding.md R59, R61: the hexadecimal digits the listing prints are read back as the number. -/
def Obligations.HexLiteralsReadBack : Prop :=
  ∀ width n : Nat, 1 ≤ width → n < 16 ^ width → parseLiteral ('0' :: 'x' :: hexText width n) = some (n : Int)

/-- 30_encoding.md R59: a 32-bit operand takes exactly the integers of `[-2^31, 2^32)` and encodes one as that integer
modulo `2^32`; the 64-bit operand exactly those of `[0, 2^64)`; any other is an assembly error. -/
def Obligations.LiteralsAreRangeChecked : Prop :=
  ∀ (text : List Char) (n : Int), parseLiteral text = some n →
    (-(2 ^ 31) ≤ n ∧ n < 2 ^ 32 → ∃ w, operand32 text = .ok w ∧ (w.toNat : Int) = n % 2 ^ 32) ∧
    (¬ (-(2 ^ 31) ≤ n ∧ n < 2 ^ 32) → operand32 text = .error .literalRange) ∧
    (0 ≤ n ∧ n < 2 ^ 64 → ∃ w, operand64 text = .ok w ∧ (w.toNat : Int) = n) ∧
    (¬ (0 ≤ n ∧ n < 2 ^ 64) → operand64 text = .error .literalRange)

/-! ### The open parameters -/

/-- 00_scope.md R7: `NBLK_MAX` is from 1 to `2^32 - 1`; every latency is at least 1; one opcode has one latency whatever
its operands; and of the thirteen only CONFIG, TOCGC and TOPBC have one that may differ with the block count. -/
def Obligations.OpenParametersMeetTheirConstraints : Prop :=
  (1 ≤ State.reset.nblkMax.toNat ∧ State.reset.nblkMax.toNat ≤ 2 ^ 32 - 1) ∧
  (∀ (c : Command) (blocks : Nat), 1 ≤ latency c blocks) ∧
  (∀ (c c' : Command) (i i' : Instr) (blocks blocks' : Nat), decode c = .ok i → decode c' = .ok i' → c.op = c'.op →
    latency c blocks = latency c' blocks ∧
    (c.op ≠ 0x01#8 → c.op ≠ 0x09#8 → c.op ≠ 0x0A#8 → latency c blocks = latency c' blocks'))
end

