-- ==== Sys2Proof/Laws/State.lean ====
section
/-! SUPPORT. What each named update of the state does to each field, so that no proof unfolds a record update; and what
the derived values of 10_state.md R24 depend on. -/

namespace Sys2Proof.Machine

/-! ### respond -/

@[simp] theorem State.respond_planes (st : Status) (r : BitVec 64) (s : State) : (s.respond st r).planes = s.planes := rfl
@[simp] theorem State.respond_cfgBw (st : Status) (r : BitVec 64) (s : State) : (s.respond st r).cfgBw = s.cfgBw := rfl
@[simp] theorem State.respond_cfgBh (st : Status) (r : BitVec 64) (s : State) : (s.respond st r).cfgBh = s.cfgBh := rfl
@[simp] theorem State.respond_configured (st : Status) (r : BitVec 64) (s : State) : (s.respond st r).configured = s.configured := rfl
@[simp] theorem State.respond_mode (st : Status) (r : BitVec 64) (s : State) : (s.respond st r).mode = s.mode := rfl
@[simp] theorem State.respond_err (st : Status) (r : BitVec 64) (s : State) : (s.respond st r).err = s.err := rfl
@[simp] theorem State.respond_errcode (st : Status) (r : BitVec 64) (s : State) : (s.respond st r).errcode = s.errcode := rfl
@[simp] theorem State.respond_inProgress (st : Status) (r : BitVec 64) (s : State) : (s.respond st r).inProgress = some ⟨st, r⟩ := rfl
@[simp] theorem State.respond_nblkMax (st : Status) (r : BitVec 64) (s : State) : (s.respond st r).nblkMax = s.nblkMax := rfl
@[simp] theorem State.respond_inputs (st : Status) (r : BitVec 64) (s : State) : (s.respond st r).inputs = s.inputs := rfl
@[simp] theorem State.respond_responses (st : Status) (r : BitVec 64) (s : State) : (s.respond st r).responses = s.responses := rfl

/-! ### recordError -/

@[simp] theorem State.recordError_planes (e : Rejection) (s : State) : (s.recordError e).planes = s.planes := rfl
@[simp] theorem State.recordError_cfgBw (e : Rejection) (s : State) : (s.recordError e).cfgBw = s.cfgBw := rfl
@[simp] theorem State.recordError_cfgBh (e : Rejection) (s : State) : (s.recordError e).cfgBh = s.cfgBh := rfl
@[simp] theorem State.recordError_configured (e : Rejection) (s : State) : (s.recordError e).configured = s.configured := rfl
@[simp] theorem State.recordError_mode (e : Rejection) (s : State) : (s.recordError e).mode = s.mode := rfl
@[simp] theorem State.recordError_err (e : Rejection) (s : State) : (s.recordError e).err = true := rfl
@[simp] theorem State.recordError_errcode (e : Rejection) (s : State) : (s.recordError e).errcode = if s.err then s.errcode else e.code := rfl
@[simp] theorem State.recordError_inProgress (e : Rejection) (s : State) : (s.recordError e).inProgress = s.inProgress := rfl
@[simp] theorem State.recordError_nblkMax (e : Rejection) (s : State) : (s.recordError e).nblkMax = s.nblkMax := rfl
@[simp] theorem State.recordError_inputs (e : Rejection) (s : State) : (s.recordError e).inputs = s.inputs := rfl
@[simp] theorem State.recordError_responses (e : Rejection) (s : State) : (s.recordError e).responses = s.responses := rfl

/-! ### clearError -/

@[simp] theorem State.clearError_planes (s : State) : (s.clearError).planes = s.planes := rfl
@[simp] theorem State.clearError_cfgBw (s : State) : (s.clearError).cfgBw = s.cfgBw := rfl
@[simp] theorem State.clearError_cfgBh (s : State) : (s.clearError).cfgBh = s.cfgBh := rfl
@[simp] theorem State.clearError_configured (s : State) : (s.clearError).configured = s.configured := rfl
@[simp] theorem State.clearError_mode (s : State) : (s.clearError).mode = s.mode := rfl
@[simp] theorem State.clearError_err (s : State) : (s.clearError).err = false := rfl
@[simp] theorem State.clearError_errcode (s : State) : (s.clearError).errcode = 0 := rfl
@[simp] theorem State.clearError_inProgress (s : State) : (s.clearError).inProgress = s.inProgress := rfl
@[simp] theorem State.clearError_nblkMax (s : State) : (s.clearError).nblkMax = s.nblkMax := rfl
@[simp] theorem State.clearError_inputs (s : State) : (s.clearError).inputs = s.inputs := rfl
@[simp] theorem State.clearError_responses (s : State) : (s.clearError).responses = s.responses := rfl

/-! ### resetEdge -/

@[simp] theorem State.resetEdge_planes (s : State) : (s.resetEdge).planes = s.planes := rfl
@[simp] theorem State.resetEdge_cfgBw (s : State) : (s.resetEdge).cfgBw = 0 := rfl
@[simp] theorem State.resetEdge_cfgBh (s : State) : (s.resetEdge).cfgBh = 0 := rfl
@[simp] theorem State.resetEdge_configured (s : State) : (s.resetEdge).configured = false := rfl
@[simp] theorem State.resetEdge_mode (s : State) : (s.resetEdge).mode = .pbc := rfl
@[simp] theorem State.resetEdge_err (s : State) : (s.resetEdge).err = false := rfl
@[simp] theorem State.resetEdge_errcode (s : State) : (s.resetEdge).errcode = 0 := rfl
@[simp] theorem State.resetEdge_inProgress (s : State) : (s.resetEdge).inProgress = none := rfl
@[simp] theorem State.resetEdge_nblkMax (s : State) : (s.resetEdge).nblkMax = s.nblkMax := rfl
@[simp] theorem State.resetEdge_inputs (s : State) : (s.resetEdge).inputs = s.inputs := rfl
@[simp] theorem State.resetEdge_responses (s : State) : (s.resetEdge).responses = s.responses := rfl

/-! ### construct -/

@[simp] theorem State.construct_planes (bw bh : Nat) (s : State) : (s.construct bw bh).planes = s.planes.clearBelow (32 * (bw * bh)) := rfl
@[simp] theorem State.construct_cfgBw (bw bh : Nat) (s : State) : (s.construct bw bh).cfgBw = BitVec.ofNat 32 bw := rfl
@[simp] theorem State.construct_cfgBh (bw bh : Nat) (s : State) : (s.construct bw bh).cfgBh = BitVec.ofNat 32 bh := rfl
@[simp] theorem State.construct_configured (bw bh : Nat) (s : State) : (s.construct bw bh).configured = true := rfl
@[simp] theorem State.construct_mode (bw bh : Nat) (s : State) : (s.construct bw bh).mode = .pbc := rfl
@[simp] theorem State.construct_err (bw bh : Nat) (s : State) : (s.construct bw bh).err = s.err := rfl
@[simp] theorem State.construct_errcode (bw bh : Nat) (s : State) : (s.construct bw bh).errcode = s.errcode := rfl
@[simp] theorem State.construct_inProgress (bw bh : Nat) (s : State) : (s.construct bw bh).inProgress = s.inProgress := rfl
@[simp] theorem State.construct_nblkMax (bw bh : Nat) (s : State) : (s.construct bw bh).nblkMax = s.nblkMax := rfl
@[simp] theorem State.construct_inputs (bw bh : Nat) (s : State) : (s.construct bw bh).inputs = s.inputs := rfl
@[simp] theorem State.construct_responses (bw bh : Nat) (s : State) : (s.construct bw bh).responses = s.responses := rfl

/-! ### present -/

@[simp] theorem State.present_planes (c : Command) (s : State) : (s.present c).planes = s.planes := rfl
@[simp] theorem State.present_cfgBw (c : Command) (s : State) : (s.present c).cfgBw = s.cfgBw := rfl
@[simp] theorem State.present_cfgBh (c : Command) (s : State) : (s.present c).cfgBh = s.cfgBh := rfl
@[simp] theorem State.present_configured (c : Command) (s : State) : (s.present c).configured = s.configured := rfl
@[simp] theorem State.present_mode (c : Command) (s : State) : (s.present c).mode = s.mode := rfl
@[simp] theorem State.present_err (c : Command) (s : State) : (s.present c).err = s.err := rfl
@[simp] theorem State.present_errcode (c : Command) (s : State) : (s.present c).errcode = s.errcode := rfl
@[simp] theorem State.present_inProgress (c : Command) (s : State) : (s.present c).inProgress = none := rfl
@[simp] theorem State.present_nblkMax (c : Command) (s : State) : (s.present c).nblkMax = s.nblkMax := rfl
@[simp] theorem State.present_inputs (c : Command) (s : State) : (s.present c).inputs = .command c :: s.inputs := rfl
@[simp] theorem State.present_responses (c : Command) (s : State) : (s.present c).responses = s.responses := rfl

/-! ### deliver -/

theorem State.deliver_of_none {s : State} (h : s.inProgress = none) : s.deliver = s := by simp [State.deliver, h]

theorem State.deliver_of_some {s : State} {r : Response} (h : s.inProgress = some r) :
    s.deliver = { s with inProgress := none, responses := s.responses ++ [r] } := by simp [State.deliver, h]

@[simp] theorem State.deliver_planes (s : State) : s.deliver.planes = s.planes := by unfold State.deliver; split <;> rfl
@[simp] theorem State.deliver_cfgBw (s : State) : s.deliver.cfgBw = s.cfgBw := by unfold State.deliver; split <;> rfl
@[simp] theorem State.deliver_cfgBh (s : State) : s.deliver.cfgBh = s.cfgBh := by unfold State.deliver; split <;> rfl
@[simp] theorem State.deliver_configured (s : State) : s.deliver.configured = s.configured := by unfold State.deliver; split <;> rfl
@[simp] theorem State.deliver_mode (s : State) : s.deliver.mode = s.mode := by unfold State.deliver; split <;> rfl
@[simp] theorem State.deliver_err (s : State) : s.deliver.err = s.err := by unfold State.deliver; split <;> rfl
@[simp] theorem State.deliver_errcode (s : State) : s.deliver.errcode = s.errcode := by unfold State.deliver; split <;> rfl
@[simp] theorem State.deliver_nblkMax (s : State) : s.deliver.nblkMax = s.nblkMax := by unfold State.deliver; split <;> rfl
@[simp] theorem State.deliver_inputs (s : State) : s.deliver.inputs = s.inputs := by unfold State.deliver; split <;> rfl
@[simp] theorem State.deliver_inProgress (s : State) : s.deliver.inProgress = none := by
  unfold State.deliver; split <;> simp_all

/-- The response of a command that ends is the one delivered. -/
@[simp] theorem State.deliver_respond (st : Status) (r : BitVec 64) (s : State) :
    (s.respond st r).deliver = { s with inProgress := none, responses := s.responses ++ [⟨st, r⟩] } := rfl

/-! ### The derived values read the geometry only -/

@[simp] theorem State.respond_bw (st : Status) (r : BitVec 64) (s : State) : (s.respond st r).bw = s.bw := rfl
@[simp] theorem State.respond_bh (st : Status) (r : BitVec 64) (s : State) : (s.respond st r).bh = s.bh := rfl
@[simp] theorem State.respond_ew (st : Status) (r : BitVec 64) (s : State) : (s.respond st r).ew = s.ew := rfl
@[simp] theorem State.respond_eh (st : Status) (r : BitVec 64) (s : State) : (s.respond st r).eh = s.eh := rfl
@[simp] theorem State.respond_nblk (st : Status) (r : BitVec 64) (s : State) : (s.respond st r).nblk = s.nblk := rfl
@[simp] theorem State.recordError_bw (e : Rejection) (s : State) : (s.recordError e).bw = s.bw := rfl
@[simp] theorem State.recordError_bh (e : Rejection) (s : State) : (s.recordError e).bh = s.bh := rfl
@[simp] theorem State.recordError_ew (e : Rejection) (s : State) : (s.recordError e).ew = s.ew := rfl
@[simp] theorem State.recordError_eh (e : Rejection) (s : State) : (s.recordError e).eh = s.eh := rfl
@[simp] theorem State.recordError_nblk (e : Rejection) (s : State) : (s.recordError e).nblk = s.nblk := rfl
@[simp] theorem State.clearError_bw (s : State) : (s.clearError).bw = s.bw := rfl
@[simp] theorem State.clearError_bh (s : State) : (s.clearError).bh = s.bh := rfl
@[simp] theorem State.clearError_ew (s : State) : (s.clearError).ew = s.ew := rfl
@[simp] theorem State.clearError_eh (s : State) : (s.clearError).eh = s.eh := rfl
@[simp] theorem State.clearError_nblk (s : State) : (s.clearError).nblk = s.nblk := rfl
@[simp] theorem State.present_bw (c : Command) (s : State) : (s.present c).bw = s.bw := rfl
@[simp] theorem State.present_bh (c : Command) (s : State) : (s.present c).bh = s.bh := rfl
@[simp] theorem State.present_ew (c : Command) (s : State) : (s.present c).ew = s.ew := rfl
@[simp] theorem State.present_eh (c : Command) (s : State) : (s.present c).eh = s.eh := rfl
@[simp] theorem State.present_nblk (c : Command) (s : State) : (s.present c).nblk = s.nblk := rfl
@[simp] theorem State.deliver_bw (s : State) : s.deliver.bw = s.bw := by simp [State.bw]
@[simp] theorem State.deliver_bh (s : State) : s.deliver.bh = s.bh := by simp [State.bh]
@[simp] theorem State.deliver_nblk (s : State) : s.deliver.nblk = s.nblk := by simp [State.nblk]

/-! ### Outcomes -/

@[simp] theorem Result.map_next (f : State → State) (s : State) : Result.map f (.next s) = .next (f s) := rfl

@[simp] theorem Result.map_fault (f : State → State) (r : Fault) : Result.map f (.fault r) = .fault r := rfl

@[simp] theorem Result.map_refused (f : State → State) (r : Refusal) : Result.map f (.refused r) = .refused r := rfl

/-- An outcome changed by `f` is a next state exactly when it was one. -/
theorem Result.map_eq_next {f : State → State} {o : Result} {t : State} :
    Result.map f o = .next t ↔ ∃ s, o = .next s ∧ f s = t := by
  cases o <;> simp [Result.map]

end Sys2Proof.Machine
end

