-- ==== Sys2Proof/Laws/Exec.lean ====
section
/-! SUPPORT. What the shared operations can answer, where an in-range operand leads, and, once for all commands, what a
command can do: be rejected, or have its one effect. -/

namespace Sys2Proof.Machine

/-! ### The shared operations -/

@[simp] theorem needGrid_of_configured {s : State} (h : s.configured = true) (go : Result) : needGrid s go = go := by
  simp [needGrid, h]

@[simp] theorem needGrid_of_not_configured {s : State} (h : s.configured = false) (go : Result) :
    needGrid s go = reject .state s := by simp [needGrid, h]

@[simp] theorem check_true (e : Rejection) (s : State) (go : Result) : check true e s go = go := rfl

@[simp] theorem check_false (e : Rejection) (s : State) (go : Result) : check false e s go = reject e s := rfl

theorem accessBlocks_of_le {n : Nat} {s : State} (h : n ≤ s.nblkMax.toNat) (go : Result) :
    accessBlocks n s go = go := by simp [accessBlocks, h]

/-- A rejection answers the record, the code and a zero result, and nothing else. -/
theorem reject_eq (e : Rejection) (s : State) :
    reject e s = .next { s with
      err := true, errcode := if s.err then s.errcode else e.code, inProgress := some ⟨.rejected e, 0⟩ } := rfl

/-- If a command gated by the grid answers, there is a grid and it answers so, or it is rejected with `E_STATE`. -/
theorem needGrid_eq_next {s t : State} {go : Result} (h : needGrid s go = .next t) :
    (s.configured = true ∧ go = .next t) ∨ reject .state s = .next t := by
  unfold needGrid at h
  split at h
  · exact .inl ⟨by assumption, h⟩
  · exact .inr h

theorem check_eq_next {ok : Bool} {e : Rejection} {s t : State} {go : Result} (h : check ok e s go = .next t) :
    (ok = true ∧ go = .next t) ∨ reject e s = .next t := by
  cases ok
  · exact .inr h
  · exact .inl ⟨rfl, h⟩

theorem accessBlocks_eq_next {n : Nat} {s t : State} {go : Result} (h : accessBlocks n s go = .next t) :
    n ≤ s.nblkMax.toNat ∧ go = .next t := by
  unfold accessBlocks at h
  split at h
  · exact ⟨by assumption, h⟩
  · simp at h

/-! ### Range checks -/

theorem State.inRange_iff {s : State} {x y : Word32} :
    s.inRange x y = true ↔ 0 ≤ s32 x ∧ s32 x < 8 * s.bw ∧ 0 ≤ s32 y ∧ s32 y < 8 * s.bh := by
  simp [State.inRange, State.ew, State.eh, and_assoc]

theorem State.blockInRange_iff {s : State} {bx byy : Word32} :
    s.blockInRange bx byy = true ↔ 0 ≤ s32 bx ∧ s32 bx < s.bw ∧ 0 ≤ s32 byy ∧ s32 byy < s.bh := by
  simp [State.blockInRange, and_assoc]

theorem depthInRange_iff {d : Word32} : depthInRange d = true ↔ 0 ≤ s32 d ∧ s32 d < 32 := by simp [depthInRange]

theorem dimensionsOk_iff {w h : Word32} : dimensionsOk w h = true ↔ 8 < s32 w ∧ 8 < s32 h := by simp [dimensionsOk]

/-- A flat index lies in the grid (20_memory.md R34). -/
theorem State.flatIndex_lt {s : State} {bx byy : Nat} (hx : bx < s.bw) (hy : byy < s.bh) :
    s.flatIndex bx byy < s.nblk := by
  unfold State.flatIndex State.nblk
  calc byy * s.bw + bx < byy * s.bw + s.bw := by omega
    _ = (byy + 1) * s.bw := by ring
    _ ≤ s.bh * s.bw := Nat.mul_le_mul_right _ hy
    _ = s.bw * s.bh := Nat.mul_comm ..

/-- The flat index is one-to-one (20_memory.md R34). -/
theorem State.flatIndex_inj {s : State} {bx byy bx' byy' : Nat} (hx : bx < s.bw) (hx' : bx' < s.bw) :
    s.flatIndex bx byy = s.flatIndex bx' byy' ↔ bx = bx' ∧ byy = byy' := by
  unfold State.flatIndex
  refine ⟨fun h => ?_, by rintro ⟨rfl, rfl⟩; rfl⟩
  have hq : byy = byy' := by
    have h1 : (byy * s.bw + bx) / s.bw = byy := by
      rw [Nat.mul_comm, Nat.mul_add_div (by omega), Nat.div_eq_of_lt hx, Nat.add_zero]
    have h2 : (byy' * s.bw + bx') / s.bw = byy' := by
      rw [Nat.mul_comm, Nat.mul_add_div (by omega), Nat.div_eq_of_lt hx', Nat.add_zero]
    rw [← h1, ← h2, h]
  subst hq
  exact ⟨by omega, rfl⟩

theorem State.pixelBlock_lt {s : State} {x y : Word32} (h : s.inRange x y = true) : s.pixelBlock x y < s.nblk := by
  rw [State.inRange_iff] at h
  exact State.flatIndex_lt (by omega) (by omega)

theorem State.operandBlock_lt {s : State} {bx byy : Word32} (h : s.blockInRange bx byy = true) :
    s.operandBlock bx byy < s.nblk := by
  rw [State.blockInRange_iff] at h
  exact State.flatIndex_lt (by omega) (by omega)

theorem pixelPosition_lt (x y : Word32) : pixelPosition x y < 64 := by unfold pixelPosition; omega

/-! ### What a command can do -/

/-- The effect of a command that passes its checks: its result, and the state before its response is set. -/
inductive Effect (s : State) : Instr → BitVec 64 → State → Prop where
  | config {w h : Word32} (free : s.configured = false) (dims : dimensionsOk w h = true)
      (fits : blocksAcross (s32 w) * blocksAcross (s32 h) ≤ s.nblkMax.toNat) :
      Effect s (.config w h) 0 (s.construct (blocksAcross (s32 w)) (blocksAcross (s32 h)))
  | inrange {x y : Word32} (grid : s.configured = true) : Effect s (.inrange x y) (if s.inRange x y then 1 else 0) s
  | getbw (grid : s.configured = true) : Effect s .getbw (s.cfgBw.zeroExtend 64) s
  | getbh (grid : s.configured = true) : Effect s .getbh (s.cfgBh.zeroExtend 64) s
  | setcolor {x y : Word32} {color : Color} (grid : s.configured = true) (range : s.inRange x y = true)
      (exist : s.pixelBlock x y + 1 ≤ s.nblkMax.toNat) :
      Effect s (.setcolor x y color) 0
        { s with planes := s.planes.blkSet (s.pixelBlock x y) (pixelPosition x y) color }
  | getcolor {x y : Word32} (grid : s.configured = true) (range : s.inRange x y = true)
      (exist : s.pixelBlock x y + 1 ≤ s.nblkMax.toNat) :
      Effect s (.getcolor x y) ((s.planes.blkGet (s.pixelBlock x y) (pixelPosition x y)).zeroExtend 64) s
  | getplane {bx byy d : Word32} (grid : s.configured = true) (range : s.blockInRange bx byy = true)
      (depth : depthInRange d = true) (exist : s.operandBlock bx byy + 1 ≤ s.nblkMax.toNat) :
      Effect s (.getplane bx byy d) (s.plane (s.operandBlock bx byy) (s32 d).toNat) s
  | setplane {bx byy d : Word32} {plane : Plane} (grid : s.configured = true) (range : s.blockInRange bx byy = true)
      (depth : depthInRange d = true) (exist : s.operandBlock bx byy + 1 ≤ s.nblkMax.toNat) :
      Effect s (.setplane bx byy d plane) 0
        { s with planes := s.planes.setPlane (s.operandBlock bx byy) (s32 d).toNat plane }
  | tocgc (grid : s.configured = true) (exist : s.nblk ≤ s.nblkMax.toNat) :
      Effect s .tocgc 0 { s with planes := Memory.eachBlock Memory.cgcBlock s.nblk s.planes, mode := .cgc }
  | topbc (grid : s.configured = true) (exist : s.nblk ≤ s.nblkMax.toNat) :
      Effect s .topbc 0 { s with planes := Memory.eachBlock Memory.pbcBlock s.nblk s.planes, mode := .pbc }
  | rdstat : Effect s .rdstat s.statusWord s
  | clrerr : Effect s .clrerr 0 s.clearError
  | getcap : Effect s .getcap (s.nblkMax.zeroExtend 64) s

/-- A command that passes its checks has its effect. -/
theorem exec_of_effect {s u : State} {i : Instr} {r : BitVec 64} (h : Effect s i r u) :
    exec i s = .next (u.respond .ok r) := by
  cases h with
  | config free dims fits => simp [exec, execConfig, free, dims, fits, complete]
  | inrange grid => simp [exec, execInrange, grid, complete]
  | getbw grid => simp [exec, execGetbw, grid, complete]
  | getbh grid => simp [exec, execGetbh, grid, complete]
  | setcolor grid range exist => simp [exec, execSetcolor, grid, range, accessBlocks_of_le exist, complete]
  | getcolor grid range exist => simp [exec, execGetcolor, grid, range, accessBlocks_of_le exist, complete]
  | getplane grid range depth exist => simp [exec, execGetplane, grid, range, depth, accessBlocks_of_le exist, complete]
  | setplane grid range depth exist => simp [exec, execSetplane, grid, range, depth, accessBlocks_of_le exist, complete]
  | tocgc grid exist => simp [exec, execTocgc, grid, accessBlocks_of_le exist, complete]
  | topbc grid exist => simp [exec, execTopbc, grid, accessBlocks_of_le exist, complete]
  | rdstat => rfl
  | clrerr => rfl
  | getcap => rfl

/-- A command that answers was rejected, or had its effect. -/
theorem exec_cases {s t : State} {i : Instr} (h : exec i s = .next t) :
    (∃ e, t = (s.recordError e).respond (.rejected e) 0) ∨ ∃ r u, Effect s i r u ∧ t = u.respond .ok r := by
  have rejected {e : Rejection} (h : reject e s = .next t) :
      (∃ e, t = (s.recordError e).respond (.rejected e) 0) ∨ ∃ r u, Effect s i r u ∧ t = u.respond .ok r := by
    simp only [reject, Host.Outcome.next.injEq] at h
    exact .inl ⟨e, h.symm⟩
  have completed {r : BitVec 64} {u : State} (h : complete r u = .next t) (he : Effect s i r u) :
      (∃ e, t = (s.recordError e).respond (.rejected e) 0) ∨ ∃ r u, Effect s i r u ∧ t = u.respond .ok r := by
    simp only [complete, Host.Outcome.next.injEq] at h
    exact .inr ⟨r, u, he, h.symm⟩
  cases i with
  | config w hh =>
    rcases check_eq_next h with ⟨h1, h⟩ | h <;> [skip; exact rejected h]
    rcases check_eq_next h with ⟨h2, h⟩ | h <;> [skip; exact rejected h]
    rcases check_eq_next h with ⟨h3, h⟩ | h <;> [skip; exact rejected h]
    exact completed h (.config (by simpa using h1) h2 (by simpa using h3))
  | inrange x y =>
    rcases needGrid_eq_next h with ⟨hg, h⟩ | h <;> [exact completed h (.inrange hg); exact rejected h]
  | getbw => rcases needGrid_eq_next h with ⟨hg, h⟩ | h <;> [exact completed h (.getbw hg); exact rejected h]
  | getbh => rcases needGrid_eq_next h with ⟨hg, h⟩ | h <;> [exact completed h (.getbh hg); exact rejected h]
  | setcolor x y color =>
    rcases needGrid_eq_next h with ⟨hg, h⟩ | h <;> [skip; exact rejected h]
    rcases check_eq_next h with ⟨hr, h⟩ | h <;> [skip; exact rejected h]
    obtain ⟨hn, h⟩ := accessBlocks_eq_next h
    exact completed h (.setcolor hg hr hn)
  | getcolor x y =>
    rcases needGrid_eq_next h with ⟨hg, h⟩ | h <;> [skip; exact rejected h]
    rcases check_eq_next h with ⟨hr, h⟩ | h <;> [skip; exact rejected h]
    obtain ⟨hn, h⟩ := accessBlocks_eq_next h
    exact completed h (.getcolor hg hr hn)
  | getplane bx byy d =>
    rcases needGrid_eq_next h with ⟨hg, h⟩ | h <;> [skip; exact rejected h]
    rcases check_eq_next h with ⟨hr, h⟩ | h <;> [skip; exact rejected h]
    rcases check_eq_next h with ⟨hd, h⟩ | h <;> [skip; exact rejected h]
    obtain ⟨hn, h⟩ := accessBlocks_eq_next h
    exact completed h (.getplane hg hr hd hn)
  | setplane bx byy d plane =>
    rcases needGrid_eq_next h with ⟨hg, h⟩ | h <;> [skip; exact rejected h]
    rcases check_eq_next h with ⟨hr, h⟩ | h <;> [skip; exact rejected h]
    rcases check_eq_next h with ⟨hd, h⟩ | h <;> [skip; exact rejected h]
    obtain ⟨hn, h⟩ := accessBlocks_eq_next h
    exact completed h (.setplane hg hr hd hn)
  | tocgc =>
    rcases needGrid_eq_next h with ⟨hg, h⟩ | h <;> [skip; exact rejected h]
    obtain ⟨hn, h⟩ := accessBlocks_eq_next h
    exact completed h (.tocgc hg hn)
  | topbc =>
    rcases needGrid_eq_next h with ⟨hg, h⟩ | h <;> [skip; exact rejected h]
    obtain ⟨hn, h⟩ := accessBlocks_eq_next h
    exact completed h (.topbc hg hn)
  | rdstat => exact completed h .rdstat
  | clrerr => exact completed h .clrerr
  | getcap => exact completed h .getcap

end Sys2Proof.Machine
end

