-- ==== Sys2Proof/Laws/Memory.lean ====
section
/-! SUPPORT. The laws of the plane storage: reading after writing, the canonical form is kept, and equal contents are
equal data. -/

namespace Sys2Proof.Machine

@[simp] theorem Memory.read_nil (a : Nat) : Memory.read [] a = 0 := rfl

@[simp] theorem Memory.read_cons (k : Nat) (v : Plane) (m : Memory) (a : Nat) :
    Memory.read ((k, v) :: m) a = if k = a then v else Memory.read m a := rfl

/-- An address that is not listed reads 0. -/
theorem Memory.read_of_not_listed {m : Memory} {a : Nat} (h : ∀ cell ∈ m, cell.1 ≠ a) : m.read a = 0 := by
  induction m with
  | nil => rfl
  | cons cell m ih =>
    obtain ⟨k, v⟩ := cell
    have hk : k ≠ a := h (k, v) (by simp)
    simpa [hk] using ih fun c hc => h c (by simp [hc])

/-! ### What each operation does to a read -/

/-- Keeping the words whose address passes a test. -/
theorem Memory.read_filter (m : Memory) (keep : Nat → Bool) (a : Nat) :
    Memory.read (m.filter fun cell => keep cell.1) a = if keep a then m.read a else 0 := by
  induction m with
  | nil => simp
  | cons cell m ih =>
    obtain ⟨k, v⟩ := cell
    by_cases hk : k = a
    · subst hk
      by_cases hp : keep k <;> simp_all
    · by_cases hp : keep k <;> simp_all

theorem Memory.read_without (m : Memory) (a x : Nat) : (m.without a).read x = if x = a then 0 else m.read x := by
  have := Memory.read_filter m (fun k => decide (k ≠ a)) x
  by_cases h : x = a <;> simp_all [Memory.without]

theorem Memory.not_listed_without (m : Memory) (a : Nat) : ∀ cell ∈ m.without a, cell.1 ≠ a := by
  intro cell h
  simpa using (List.mem_filter.mp h).2

theorem Memory.read_put {m : Memory} {a : Nat} (h : ∀ cell ∈ m, cell.1 ≠ a) (v : Plane) (x : Nat) :
    (m.put a v).read x = if x = a then v else m.read x := by
  induction m with
  | nil => simp [Memory.put, eq_comm]
  | cons cell m ih =>
    obtain ⟨k, w⟩ := cell
    have hk : k ≠ a := h (k, w) (by simp)
    have ih := ih fun c hc => h c (by simp [hc])
    unfold Memory.put
    split
    · by_cases hx : x = a
      · simp [hx]
      · simp [hx, Ne.symm hx]
    · by_cases hx : x = a
      · subst hx; simp [hk, ih]
      · simp [ih, hx]

/-- Reading after writing: the word written at its address, and every other word as it was. -/
theorem Memory.read_write (m : Memory) (a : Nat) (v : Plane) (x : Nat) :
    (m.write a v).read x = if x = a then v else m.read x := by
  unfold Memory.write
  split
  · simp_all [Memory.read_without]
  · rw [Memory.read_put (m.not_listed_without a)]
    by_cases hx : x = a <;> simp [hx, Memory.read_without]

/-- CONFIG's zeroing: 0 below the address, and every other word as it was. -/
theorem Memory.read_clearBelow (m : Memory) (n x : Nat) :
    (m.clearBelow n).read x = if x < n then 0 else m.read x := by
  have := Memory.read_filter m (fun k => decide (n ≤ k)) x
  by_cases h : x < n <;> simp_all [Memory.clearBelow]

/-! ### Which words an operation lists -/

theorem Memory.mem_put {m : Memory} {a : Nat} {v : Plane} {cell : Nat × Plane} :
    cell ∈ m.put a v ↔ cell = (a, v) ∨ cell ∈ m := by
  induction m with
  | nil => simp [Memory.put]
  | cons c m ih =>
    obtain ⟨k, w⟩ := c
    unfold Memory.put
    split
    · simp
    · simp only [List.mem_cons, ih]; tauto

/-- Every word listed after a write was listed before or is the one written. -/
theorem Memory.mem_write {m : Memory} {a : Nat} {v : Plane} {cell : Nat × Plane} (h : cell ∈ m.write a v) :
    cell = (a, v) ∨ cell ∈ m := by
  unfold Memory.write at h
  split at h
  · exact .inr (List.mem_filter.mp h).1
  · exact (Memory.mem_put.mp h).imp_right fun h => (List.mem_filter.mp h).1

theorem Memory.mem_clearBelow {m : Memory} {n : Nat} {cell : Nat × Plane} (h : cell ∈ m.clearBelow n) : cell ∈ m :=
  (List.mem_filter.mp h).1

/-! ### The canonical form is kept -/

theorem Memory.wf_nil : Memory.wf [] := ⟨List.Pairwise.nil, by simp⟩

theorem Memory.wf_filter {m : Memory} (h : m.wf) (keep : Nat × Plane → Bool) : Memory.wf (m.filter keep) :=
  ⟨h.1.filter keep, fun cell hc => h.2 cell (List.mem_filter.mp hc).1⟩

theorem Memory.wf_without {m : Memory} (h : m.wf) (a : Nat) : (m.without a).wf := Memory.wf_filter h _

theorem Memory.wf_clearBelow {m : Memory} (h : m.wf) (n : Nat) : (m.clearBelow n).wf := Memory.wf_filter h _

theorem Memory.sorted_put {m : Memory} {a : Nat} {v : Plane} (hs : m.Pairwise fun x y => x.1 < y.1)
    (ha : ∀ cell ∈ m, cell.1 ≠ a) : (m.put a v).Pairwise fun x y => x.1 < y.1 := by
  induction m with
  | nil => simp [Memory.put]
  | cons c m ih =>
    obtain ⟨k, w⟩ := c
    have hk : k ≠ a := ha (k, w) (by simp)
    obtain ⟨hlt, hrest⟩ := List.pairwise_cons.mp hs
    unfold Memory.put
    split
    case isTrue hak =>
      refine List.pairwise_cons.mpr ⟨?_, hs⟩
      intro cell hc
      rcases List.mem_cons.mp hc with rfl | hc
      · exact hak
      · exact hak.trans (hlt cell hc)
    case isFalse hak =>
      refine List.pairwise_cons.mpr ⟨?_, ih hrest fun c hc => ha c (by simp [hc])⟩
      intro cell hc
      rcases Memory.mem_put.mp hc with rfl | hc
      · exact lt_of_le_of_ne (Nat.le_of_not_lt hak) hk
      · exact hlt cell hc

/-- Every write keeps the canonical form. -/
theorem Memory.wf_write {m : Memory} (h : m.wf) (a : Nat) (v : Plane) : (m.write a v).wf := by
  unfold Memory.write
  split
  · exact Memory.wf_without h a
  · case isFalse hv =>
    have hw := Memory.wf_without h a
    refine ⟨Memory.sorted_put hw.1 (m.not_listed_without a), fun cell hc => ?_⟩
    rcases Memory.mem_put.mp hc with rfl | hc
    · exact hv
    · exact hw.2 cell hc

/-- In the canonical form the first word's address reads as that word and as 0 in what follows. -/
theorem Memory.wf_cons {k : Nat} {v : Plane} {m : Memory} (h : Memory.wf ((k, v) :: m)) :
    v ≠ 0 ∧ m.wf ∧ ∀ a, a ≤ k → m.read a = 0 := by
  obtain ⟨hlt, hs⟩ := List.pairwise_cons.mp h.1
  refine ⟨h.2 (k, v) (by simp), ⟨hs, fun c hc => h.2 c (by simp [hc])⟩, fun a ha => ?_⟩
  exact Memory.read_of_not_listed fun c hc => (lt_of_le_of_lt ha (hlt c hc)).ne'

/-- In the canonical form equal contents are equal data. -/
theorem Memory.ext_read {m m' : Memory} (h : m.wf) (h' : m'.wf) (hr : ∀ a, m.read a = m'.read a) : m = m' := by
  induction m generalizing m' with
  | nil =>
    cases m' with
    | nil => rfl
    | cons c m' =>
      obtain ⟨k, v⟩ := c
      exact absurd (by simpa using (hr k).symm) (Memory.wf_cons h').1
  | cons c m ih =>
    obtain ⟨k, v⟩ := c
    obtain ⟨hv, hw, hz⟩ := Memory.wf_cons h
    cases m' with
    | nil => exact absurd (by simpa using hr k) hv
    | cons c' m' =>
      obtain ⟨k', v'⟩ := c'
      obtain ⟨hv', hw', hz'⟩ := Memory.wf_cons h'
      have hkk : k = k' := by
        rcases Nat.lt_trichotomy k k' with hlt | heq | hlt
        · have := hr k
          simp only [Memory.read_cons, if_true, hlt.ne', if_false, hz' k hlt.le] at this
          exact absurd this hv
        · exact heq
        · have := hr k'
          simp only [Memory.read_cons, if_true, hlt.ne', if_false, hz k' hlt.le] at this
          exact absurd this.symm hv'
      subst hkk
      have hvv : v = v' := by simpa using hr k
      have hm : m = m' := ih hw hw' fun a => by
        by_cases ha : k = a
        · subst ha; rw [hz k le_rfl, hz' k le_rfl]
        · simpa [ha] using hr a
      rw [hvv, hm]

/-! ### The same in plane coordinates (20_memory.md R35) -/

/-- Distinct planes have distinct addresses. -/
theorem planeAddress_inj {b d b' d' : Nat} (hd : d < 32) (hd' : d' < 32) :
    planeAddress b d = planeAddress b' d' ↔ b = b' ∧ d = d' := by
  unfold planeAddress; omega

theorem Memory.plane_setPlane (m : Memory) {b d b' d' : Nat} (v : Plane) (hd : d < 32) (hd' : d' < 32) :
    (m.setPlane b d v).plane b' d' = if b' = b ∧ d' = d then v else m.plane b' d' := by
  unfold Memory.setPlane Memory.plane
  rw [Memory.read_write]
  simp only [planeAddress_inj hd' hd]

theorem Memory.read_setPlane (m : Memory) (b d : Nat) (v : Plane) (a : Nat) :
    (m.setPlane b d v).read a = if a = planeAddress b d then v else m.read a := Memory.read_write ..

theorem Memory.wf_setPlane {m : Memory} (h : m.wf) (b d : Nat) (v : Plane) : (m.setPlane b d v).wf :=
  Memory.wf_write h ..

end Sys2Proof.Machine
end

