-- ==== Sys2Proof/Laws/PerInstr.lean ====
section
/-! SUPPORT. Per command: its encoding is a legal command word, and the decoder reads it back. -/

namespace Sys2Proof.Laws.Encoded

/-- The encoding is legal (30_encoding.md R51) and decodes to the command (R55). -/
def Statement (i : Instr) : Prop := (encode i).wellFormed = true ∧ decode (encode i) = .ok i

/-- Every encoding carries the command's word. -/
theorem encode_cmd (i : Instr) : (encode i).cmd = i.word := by cases i <;> rfl

/-- The opcode of an encoding, with no reserved bit set. -/
theorem encode_op (i : Instr) : (encode i).op = i.opcode ∧ (encode i).reservedClear = true := by
  unfold Command.op Command.reservedClear
  rw [encode_cmd]
  cases i <;> (simp only [Instr.word, Instr.opcode]; decide)

/-- An encoding is read by its opcode. -/
theorem of_select {i : Instr} (hop : (0x01#8 ≤ i.opcode && i.opcode ≤ 0x0D#8) = true)
    (hi : (encode i).select i.opcode.toNat = .ok i) : Statement i := by
  obtain ⟨h1, h2⟩ := encode_op i
  refine ⟨?_, by rw [decode, if_pos h2, h1, hi]⟩
  rw [Command.wellFormed, h2, Bool.true_and, ← hop, ← h1]
  rfl

theorem config (w h : Word32) : Statement (.config w h) :=
  of_select (by simp [Instr.opcode]) rfl
theorem inrange (x y : Word32) : Statement (.inrange x y) :=
  of_select (by simp [Instr.opcode]) rfl
theorem getbw : Statement .getbw :=
  of_select (by simp [Instr.opcode]) rfl
theorem getbh : Statement .getbh :=
  of_select (by simp [Instr.opcode]) rfl
theorem setcolor (x y : Word32) (color : Color) : Statement (.setcolor x y color) :=
  of_select (by simp [Instr.opcode]) rfl
theorem getcolor (x y : Word32) : Statement (.getcolor x y) :=
  of_select (by simp [Instr.opcode]) rfl
theorem getplane (blockX blockY depth : Word32) : Statement (.getplane blockX blockY depth) :=
  of_select (by simp [Instr.opcode]) rfl
theorem setplane (blockX blockY depth : Word32) (plane : Plane) :
    Statement (.setplane blockX blockY depth plane) :=
  of_select (by simp [Instr.opcode]) rfl
theorem tocgc : Statement .tocgc :=
  of_select (by simp [Instr.opcode]) rfl
theorem topbc : Statement .topbc :=
  of_select (by simp [Instr.opcode]) rfl
theorem rdstat : Statement .rdstat :=
  of_select (by simp [Instr.opcode]) rfl
theorem clrerr : Statement .clrerr :=
  of_select (by simp [Instr.opcode]) rfl
theorem getcap : Statement .getcap :=
  of_select (by simp [Instr.opcode]) rfl

end Sys2Proof.Laws.Encoded
end

