-- ==== Sys2Proof/Laws/Pixel.lean ====
section
/-! SUPPORT. What the block write and read steps of the pixel codec do (41_pixel_codec.md R73, R74). -/

namespace Sys2Proof.Machine

/-- Replacing bit `p` replaces that bit and keeps the others. -/
theorem getLsbD_withBit (v : Plane) {p : Nat} (hp : p < 64) (bit : Bool) (i : Nat) :
    (withBit v p bit).getLsbD i = if i = p then bit else v.getLsbD i := by
  unfold withBit
  by_cases hi : i < 64
  · rcases Nat.lt_trichotomy i p with h | h | h
    · simp [hi, h, h.ne]
    · subst h; cases bit <;> simp [hi]
    · have h0 : i - p ≠ 0 := by omega
      have h1 : ¬ i < p := by omega
      cases bit <;> simp [hi, h.ne', h0, h1]
  · have : i ≠ p := by omega
    simp [this, BitVec.getLsbD_of_ge, Nat.le_of_not_lt hi]

/-- The planes after the first `n` steps of `blkSet`. -/
theorem Memory.plane_blkSetSteps (m : Memory) (b p : Nat) (color : Color) {n : Nat} (hn : n ≤ 32) (b' : Nat)
    {d' : Nat} (hd' : d' < 32) :
    (Memory.blkSetSteps b p color n m).plane b' d' =
      if b' = b ∧ d' < n then withBit (m.plane b d') p (color.getLsbD d') else m.plane b' d' := by
  induction n generalizing b' d' with
  | zero => simp [Memory.blkSetSteps]
  | succ n ih =>
    have ih {b'} {d'} (h : d' < 32) := ih (by omega) b' h
    simp only [Memory.blkSetSteps, Memory.plane_setPlane _ _ (show n < 32 by omega) hd', ih hd',
      ih (show n < 32 by omega)]
    by_cases hb : b' = b
    · subst hb
      rcases Nat.lt_trichotomy d' n with h | h | h
      · simp [h, h.ne, Nat.lt_succ_of_lt h]
      · subst h; simp
      · have h1 : ¬ d' < n := by omega
        have h2 : ¬ d' < n + 1 := by omega
        simp [h.ne', h1, h2]
    · simp [hb]

/-- `blkSet` writes bit `d` of the color at position `p` of plane `d`, for every depth of the block, and no other bit
(R73). -/
theorem Memory.plane_blkSet (m : Memory) (b p : Nat) (color : Color) (b' : Nat) {d' : Nat} (hd' : d' < 32) :
    (m.blkSet b p color).plane b' d' =
      if b' = b then withBit (m.plane b d') p (color.getLsbD d') else m.plane b' d' := by
  unfold Memory.blkSet
  rw [Memory.plane_blkSetSteps m b p color le_rfl b' hd']
  simp [hd']

/-- `blkSet` writes no word outside the block's 32. -/
theorem Memory.read_blkSetSteps_outside (m : Memory) (b p : Nat) (color : Color) (n : Nat) {a : Nat}
    (ha : a < 32 * b ∨ 32 * b + n ≤ a) : (Memory.blkSetSteps b p color n m).read a = m.read a := by
  induction n with
  | zero => rfl
  | succ n ih =>
    simp only [Memory.blkSetSteps]
    rw [Memory.read_setPlane, if_neg (by unfold planeAddress; omega), ih (by omega)]

theorem Memory.read_blkSet_outside (m : Memory) (b p : Nat) (color : Color) {a : Nat}
    (ha : a < 32 * b ∨ 32 * b + 32 ≤ a) : (m.blkSet b p color).read a = m.read a :=
  Memory.read_blkSetSteps_outside m b p color 32 ha

theorem Memory.wf_blkSet {m : Memory} (h : m.wf) (b p : Nat) (color : Color) : (m.blkSet b p color).wf := by
  suffices ∀ n, (Memory.blkSetSteps b p color n m).wf from this 32
  intro n
  induction n with
  | zero => exact h
  | succ n ih => exact Memory.wf_setPlane ih ..

/-- The bits of the value `blkGet` has read after `n` more steps. -/
theorem Memory.getLsbD_blkGetSteps (m : Memory) (b p n : Nat) (r : Color) {i : Nat} (hi : i < 32) :
    (m.blkGetSteps b p n r).getLsbD i = if i < n then (m.plane b i).getLsbD p else r.getLsbD (i - n) := by
  induction n generalizing r with
  | zero => simp [Memory.blkGetSteps]
  | succ n ih =>
    rw [Memory.blkGetSteps, ih]
    rcases Nat.lt_trichotomy i n with h | h | h
    · simp [h, Nat.lt_succ_of_lt h]
    · subst h; simp
    · have h1 : ¬ i < n := by omega
      have h2 : ¬ i < n + 1 := by omega
      have h3 : i - n ≠ 0 := by omega
      have h4 : i - n < 32 := by omega
      have h5 : i - n - 1 = i - (n + 1) := by omega
      rw [if_neg h1, if_neg h2, ← h5]
      simp [h3, h4, BitVec.getLsbD_eq_getElem (show i - n - 1 < 32 by omega)]

/-- `blkGet` returns the value whose bit `d` is bit `p` of plane `d` (R74). -/
theorem Memory.getLsbD_blkGet (m : Memory) (b p : Nat) {d : Nat} (hd : d < 32) :
    (m.blkGet b p).getLsbD d = (m.plane b d).getLsbD p := by
  rw [Memory.blkGet, Memory.getLsbD_blkGetSteps m b p 32 0 hd, if_pos hd]

/-- A pixel reads the same from storages whose planes agree at its position. -/
theorem Memory.blkGet_congr {m m' : Memory} {b p : Nat}
    (h : ∀ d, d < 32 → (m'.plane b d).getLsbD p = (m.plane b d).getLsbD p) : m'.blkGet b p = m.blkGet b p := by
  apply BitVec.eq_of_getLsbD_eq
  intro i hi
  rw [Memory.getLsbD_blkGet _ _ _ hi, Memory.getLsbD_blkGet _ _ _ hi, h i hi]

end Sys2Proof.Machine
end

