-- ==== Sys2Proof/Laws/Step.lean ====
section
/-! SUPPORT. What a step is for each thing the host can do next, and what every performed command leaves to the
transaction: its response, and the parts no command touches. -/

namespace Sys2Proof.Machine

variable {s t : State} {c : Command} {rest : List HostInput}

theorem step_of_command (h1 : s.inProgress = none) (h2 : s.inputs = .command c :: rest) :
    step s = Result.map State.deliver (perform c { s with inputs := rest }) := by
  unfold step advance
  split <;> simp_all [takeInput]

theorem step_of_cut (h1 : s.inProgress = none) (h2 : s.inputs = .commandCutByReset c :: rest) :
    step s = Result.map State.resetEdge (perform c { s with inputs := rest }) := by
  unfold step advance
  split <;> simp_all [takeInput]

theorem step_of_reset (h : s.inputs = .reset :: rest) : step s = .next { s with inputs := rest }.resetEdge := by
  simp only [step, advance, h, takeInput]

/-- A step does one of five things: deliver (or idle, with none to deliver), reset, perform a command, or perform one
that reset cuts. -/
theorem step_cases (h : step s = .next t) :
    t = s.deliver ∨
    (∃ rest, s.inputs = .reset :: rest ∧ t = { s with inputs := rest }.resetEdge) ∨
    (∃ c rest u, s.inProgress = none ∧ s.inputs = .command c :: rest ∧
      perform c { s with inputs := rest } = .next u ∧ t = u.deliver) ∨
    (∃ c rest u, s.inProgress = none ∧ s.inputs = .commandCutByReset c :: rest ∧
      perform c { s with inputs := rest } = .next u ∧ t = u.resetEdge) := by
  have hs := h
  rw [step, advance] at h
  split at h
  · exact .inl (by simpa using h.symm)
  · next rest hin =>
    rw [step_of_reset hin] at hs
    exact .inr (.inl ⟨rest, hin, by simpa using hs.symm⟩)
  · next input rest hno hin =>
    split at h
    · exact .inl (by simpa using h.symm)
    · next hnone =>
      cases input with
      | reset => exact absurd rfl hno
      | command c =>
        rw [step_of_command hnone hin, Result.map_eq_next] at hs
        obtain ⟨u, hu, rfl⟩ := hs
        exact .inr (.inr (.inl ⟨c, rest, u, hnone, hin, hu, rfl⟩))
      | commandCutByReset c =>
        rw [step_of_cut hnone hin, Result.map_eq_next] at hs
        obtain ⟨u, hu, rfl⟩ := hs
        exact .inr (.inr (.inr ⟨c, rest, u, hnone, hin, hu, rfl⟩))

/-- A performed command was rejected, or is a decoded command that had its effect. -/
theorem perform_cases (h : perform c s = .next t) :
    (∃ e, t = (s.recordError e).respond (.rejected e) 0) ∨
    ∃ i r u, decode c = .ok i ∧ Effect s i r u ∧ t = u.respond .ok r := by
  unfold perform at h
  split at h
  · next i hi =>
    rcases exec_cases h with he | ⟨r, u, hu, rfl⟩
    · exact .inl he
    · exact .inr ⟨i, r, u, hi, hu, rfl⟩
  · exact .inl ⟨.illegal, by simpa [reject] using h.symm⟩

/-- No command's effect touches the host's inputs, the responses delivered or the capacity. -/
theorem Effect.untouched {u : State} {i : Instr} {r : BitVec 64} (h : Effect s i r u) :
    u.inputs = s.inputs ∧ u.responses = s.responses ∧ u.nblkMax = s.nblkMax := by
  cases h <;> exact ⟨rfl, rfl, rfl⟩

theorem perform_untouched (h : perform c s = .next t) :
    t.inputs = s.inputs ∧ t.responses = s.responses ∧ t.nblkMax = s.nblkMax := by
  rcases perform_cases h with ⟨e, rfl⟩ | ⟨i, r, u, -, hu, rfl⟩
  · exact ⟨rfl, rfl, rfl⟩
  · exact hu.untouched

/-- Every performed command leaves a response to deliver. -/
theorem perform_responds (h : perform c s = .next t) : ∃ r, t.inProgress = some r := by
  rcases perform_cases h with ⟨e, rfl⟩ | ⟨i, r, u, -, -, rfl⟩ <;> exact ⟨_, rfl⟩

/-- A run of one step more, by its first step. -/
theorem run_succ (n : Nat) (s : State) :
    Host.Core.run Sys2Proof.core (n + 1) s =
      match step s with
      | .next u => Host.Core.run Sys2Proof.core n u
      | .fault r => .fault r
      | .refused r => .refused r := by
  have hs : Sys2Proof.core.step s = step s := rfl
  have h := Host.Core.run.eq_2 Sys2Proof.core s n
  rw [hs] at h
  refine h.trans ?_
  cases step s <;> rfl

end Sys2Proof.Machine
end

