-- ==== Sys2Proof/Laws/Transform.lean ====
section
/-! SUPPORT. What the cascades do to the planes of a block and of the grid (43_code_transform.md R86, R88), and that each
is the other's inverse. -/

namespace Sys2Proof.Machine

/-- One step changes one plane. -/
theorem Memory.plane_xorStep (m : Memory) (b : Nat) {d b' d' : Nat} (hd : d < 31) (hd' : d' < 32) :
    (m.xorStep b d).plane b' d' =
      if b' = b ∧ d' = d + 1 then m.plane b (d + 1) ^^^ m.plane b d else m.plane b' d' :=
  Memory.plane_setPlane m _ (by omega) hd'

/-- The planes after the steps of `cgcBlock` for depths `n` down to 1: each of them XOR the one below it, as both were
before the steps. -/
theorem Memory.plane_cgcSteps (m : Memory) (b : Nat) {n : Nat} (hn : n ≤ 31) (b' : Nat) {d' : Nat} (hd' : d' < 32) :
    (Memory.cgcSteps b n m).plane b' d' =
      if b' = b ∧ 1 ≤ d' ∧ d' ≤ n then m.plane b d' ^^^ m.plane b (d' - 1) else m.plane b' d' := by
  induction n generalizing m with
  | zero =>
    have : ¬ (b' = b ∧ 1 ≤ d' ∧ d' ≤ 0) := by omega
    rw [Memory.cgcSteps, if_neg this]
  | succ n ih =>
    rw [Memory.cgcSteps, ih _ (by omega)]
    simp only [Memory.plane_xorStep m b (show n < 31 by omega) hd',
      Memory.plane_xorStep m b (show n < 31 by omega) (show d' - 1 < 32 by omega)]
    by_cases hb : b' = b
    · subst hb
      by_cases h1 : d' = n + 1
      · subst h1; simp
      · by_cases h2 : 1 ≤ d' ∧ d' ≤ n
        · have h3 : d' ≤ n + 1 := by omega
          have h4 : d' - 1 ≠ n + 1 := by omega
          simp [h1, h2, h3, h4]
        · have h3 : ¬ (1 ≤ d' ∧ d' ≤ n + 1) := by omega
          simp only [h1, h2, h3, and_false, if_false]
    · simp [hb]

/-- `cgcBlock`: plane 0 kept, every other plane XOR the one below it (R86). -/
theorem Memory.plane_cgcBlock (m : Memory) (b b' : Nat) {d' : Nat} (hd' : d' < 32) :
    (m.cgcBlock b).plane b' d' =
      if b' = b ∧ 1 ≤ d' then m.plane b d' ^^^ m.plane b (d' - 1) else m.plane b' d' := by
  unfold Memory.cgcBlock
  rw [Memory.plane_cgcSteps m b le_rfl b' hd']
  have : d' ≤ 31 := by omega
  simp [this]

/-- The running XOR of planes 0 to `d` (R88). -/
def xorUpTo (P : Nat → Plane) : Nat → Plane
  | 0 => P 0
  | d + 1 => xorUpTo P d ^^^ P (d + 1)

/-- The planes after the steps of `pbcBlock` for depths 1 to `n`. -/
theorem Memory.plane_pbcSteps (m : Memory) (b : Nat) {n : Nat} (hn : n ≤ 31) (b' : Nat) {d' : Nat} (hd' : d' < 32) :
    (Memory.pbcSteps b n m).plane b' d' = if b' = b ∧ d' ≤ n then xorUpTo (m.plane b) d' else m.plane b' d' := by
  induction n generalizing b' d' with
  | zero =>
    by_cases h : d' = 0
    · subst h; by_cases hb : b' = b <;> simp [Memory.pbcSteps, xorUpTo, hb]
    · simp [Memory.pbcSteps, h]
  | succ n ih =>
    have ih {b'} {d'} (h : d' < 32) := ih (by omega) b' h
    rw [Memory.pbcSteps, Memory.plane_xorStep _ _ (by omega) hd', ih hd', ih (show n + 1 < 32 by omega),
      ih (show n < 32 by omega)]
    by_cases hb : b' = b
    · subst hb
      rcases Nat.lt_trichotomy d' (n + 1) with h | h | h
      · have h1 : d' ≤ n := by omega
        simp [h.ne, h1, h.le]
      · subst h; simp [xorUpTo, BitVec.xor_comm]
      · have h1 : ¬ d' ≤ n := by omega
        have h2 : ¬ d' ≤ n + 1 := by omega
        simp [h.ne', h1, h2]
    · simp [hb]

/-- `pbcBlock`: every plane becomes the running XOR of the planes up to it (R88). -/
theorem Memory.plane_pbcBlock (m : Memory) (b b' : Nat) {d' : Nat} (hd' : d' < 32) :
    (m.pbcBlock b).plane b' d' = if b' = b then xorUpTo (m.plane b) d' else m.plane b' d' := by
  unfold Memory.pbcBlock
  rw [Memory.plane_pbcSteps m b le_rfl b' hd']
  have : d' ≤ 31 := by omega
  simp [this]

/-! ### Nothing else is written, and the canonical form is kept -/

theorem Memory.read_xorStep_outside (m : Memory) (b : Nat) {d a : Nat} (hd : d < 31)
    (ha : a < 32 * b ∨ 32 * b + 32 ≤ a) : (m.xorStep b d).read a = m.read a := by
  unfold Memory.xorStep
  rw [Memory.read_setPlane, if_neg (by unfold planeAddress; omega)]

theorem Memory.read_cgcBlock_outside (m : Memory) (b : Nat) {a : Nat} (ha : a < 32 * b ∨ 32 * b + 32 ≤ a) :
    (m.cgcBlock b).read a = m.read a := by
  suffices ∀ n, n ≤ 31 → ∀ m : Memory, (Memory.cgcSteps b n m).read a = m.read a from this 31 le_rfl m
  intro n
  induction n with
  | zero => intro _ m; rfl
  | succ n ih => intro hn m; rw [Memory.cgcSteps, ih (by omega), Memory.read_xorStep_outside m b (by omega) ha]

theorem Memory.read_pbcBlock_outside (m : Memory) (b : Nat) {a : Nat} (ha : a < 32 * b ∨ 32 * b + 32 ≤ a) :
    (m.pbcBlock b).read a = m.read a := by
  suffices ∀ n, n ≤ 31 → (Memory.pbcSteps b n m).read a = m.read a from this 31 le_rfl
  intro n
  induction n with
  | zero => intro _; rfl
  | succ n ih => intro hn; rw [Memory.pbcSteps, Memory.read_xorStep_outside _ b (by omega) ha, ih (by omega)]

theorem Memory.wf_cgcBlock {m : Memory} (h : m.wf) (b : Nat) : (m.cgcBlock b).wf := by
  suffices ∀ n, ∀ m : Memory, m.wf → (Memory.cgcSteps b n m).wf from this 31 m h
  intro n
  induction n with
  | zero => intro m h; exact h
  | succ n ih => intro m h; exact ih _ (Memory.wf_setPlane h ..)

theorem Memory.wf_pbcBlock {m : Memory} (h : m.wf) (b : Nat) : (m.pbcBlock b).wf := by
  suffices ∀ n, (Memory.pbcSteps b n m).wf from this 31
  intro n
  induction n with
  | zero => exact h
  | succ n ih => exact Memory.wf_setPlane ih ..

/-! ### Every block below `n` -/

section EachBlock

variable {op : Memory → Nat → Memory}

/-- An operation that writes its own block only, on every block below `n`, writes no word above them. -/
theorem Memory.read_eachBlock_above
    (hout : ∀ m b a, (a < 32 * b ∨ 32 * b + 32 ≤ a) → Memory.read (op m b) a = Memory.read m a)
    (m : Memory) (n : Nat) {a : Nat} (ha : 32 * n ≤ a) : (Memory.eachBlock op n m).read a = m.read a := by
  induction n with
  | zero => rfl
  | succ n ih => rw [Memory.eachBlock, hout _ _ _ (by omega), ih (by omega)]

/-- Such an operation that makes the planes of its block a function `f` of what they were does so to every block below
`n`: the order of the blocks does not matter (92_eei_decisions.md D27). -/
theorem Memory.plane_eachBlock (f : (Nat → Plane) → Nat → Plane)
    (hout : ∀ m b a, (a < 32 * b ∨ 32 * b + 32 ≤ a) → Memory.read (op m b) a = Memory.read m a)
    (hop : ∀ m b d, d < 32 → Memory.plane (op m b) b d = f (Memory.plane m b) d)
    (m : Memory) (n b : Nat) {d : Nat} (hd : d < 32) :
    (Memory.eachBlock op n m).plane b d = if b < n then f (m.plane b) d else m.plane b d := by
  induction n with
  | zero => simp [Memory.eachBlock]
  | succ n ih =>
    rw [Memory.eachBlock]
    rcases Nat.lt_trichotomy b n with h | h | h
    · have hb : b < n + 1 := by omega
      rw [if_pos h] at ih
      rw [if_pos hb, ← ih]
      exact hout _ _ _ (.inl (by unfold planeAddress; omega))
    · subst h
      have hsame : (Memory.eachBlock op b m).plane b = m.plane b :=
        funext fun d => Memory.read_eachBlock_above hout m b (by unfold planeAddress; omega)
      simp [hop _ _ _ hd, hsame]
    · have h1 : ¬ b < n := by omega
      have h2 : ¬ b < n + 1 := by omega
      rw [if_neg h1] at ih
      rw [if_neg h2, ← ih]
      exact hout _ _ _ (.inr (by unfold planeAddress; omega))

theorem Memory.wf_eachBlock (hop : ∀ m b, Memory.wf m → Memory.wf (op m b)) {m : Memory} (h : m.wf) (n : Nat) :
    (Memory.eachBlock op n m).wf := by
  induction n with
  | zero => exact h
  | succ n ih => exact hop _ _ ih

end EachBlock

/-- The planes TOCGC leaves (R86, R87). -/
theorem Memory.plane_eachBlock_cgc (m : Memory) (n b : Nat) {d : Nat} (hd : d < 32) :
    (Memory.eachBlock Memory.cgcBlock n m).plane b d =
      if b < n ∧ 1 ≤ d then m.plane b d ^^^ m.plane b (d - 1) else m.plane b d := by
  rw [Memory.plane_eachBlock (fun P d => if 1 ≤ d then P d ^^^ P (d - 1) else P d)
    (fun m b _ => Memory.read_cgcBlock_outside m b)
    (fun m b d hd => by simp [Memory.plane_cgcBlock m b b hd]) m n b hd]
  by_cases h : b < n <;> simp [h]

/-- The planes TOPBC leaves (R88, R89). -/
theorem Memory.plane_eachBlock_pbc (m : Memory) (n b : Nat) {d : Nat} (hd : d < 32) :
    (Memory.eachBlock Memory.pbcBlock n m).plane b d =
      if b < n then xorUpTo (m.plane b) d else m.plane b d :=
  Memory.plane_eachBlock xorUpTo (fun m b _ => Memory.read_pbcBlock_outside m b)
    (fun m b d hd => by simp [Memory.plane_pbcBlock m b b hd]) m n b hd

theorem Memory.read_eachBlock_cgc_above (m : Memory) (n : Nat) {a : Nat} (ha : 32 * n ≤ a) :
    (Memory.eachBlock Memory.cgcBlock n m).read a = m.read a :=
  Memory.read_eachBlock_above (fun m b _ => Memory.read_cgcBlock_outside m b) m n ha

theorem Memory.read_eachBlock_pbc_above (m : Memory) (n : Nat) {a : Nat} (ha : 32 * n ≤ a) :
    (Memory.eachBlock Memory.pbcBlock n m).read a = m.read a :=
  Memory.read_eachBlock_above (fun m b _ => Memory.read_pbcBlock_outside m b) m n ha

theorem Memory.wf_eachBlock_cgc {m : Memory} (h : m.wf) (n : Nat) : (Memory.eachBlock Memory.cgcBlock n m).wf :=
  Memory.wf_eachBlock (fun _ b h => Memory.wf_cgcBlock h b) h n

theorem Memory.wf_eachBlock_pbc {m : Memory} (h : m.wf) (n : Nat) : (Memory.eachBlock Memory.pbcBlock n m).wf :=
  Memory.wf_eachBlock (fun _ b h => Memory.wf_pbcBlock h b) h n

/-! ### The two cascades on a column of planes -/

/-- Undoing the forward cascade: the running XOR of the differences is the plane itself. -/
theorem xorUpTo_differences (P : Nat → Plane) (d : Nat) :
    xorUpTo (fun d => if 1 ≤ d then P d ^^^ P (d - 1) else P d) d = P d := by
  induction d with
  | zero => rfl
  | succ d ih => simp [xorUpTo, ih, BitVec.xor_comm (P (d + 1))]

/-- Undoing the inverse cascade: the difference of two running XORs is the plane between them. -/
theorem differences_xorUpTo (P : Nat → Plane) {d : Nat} (hd : 1 ≤ d) :
    xorUpTo P d ^^^ xorUpTo P (d - 1) = P d := by
  obtain ⟨d, rfl⟩ : ∃ k, d = k + 1 := ⟨d - 1, by omega⟩
  simp [xorUpTo, BitVec.xor_comm (xorUpTo P d)]

end Sys2Proof.Machine
end

