-- ==== Sys2Proof/Laws/Safety.lean ====
section
/-! SUPPORT. The invariant depends on the spec's own state only, and in it every block a checked operand names exists. -/

namespace Sys2Proof.Machine

/-- The invariant reads the elements of 10_state.md R15 and the capacity, and nothing else. -/
theorem State.Inv.congr {s t : State} (h : s.Inv) (hp : t.planes = s.planes) (h1 : t.cfgBw = s.cfgBw)
    (h2 : t.cfgBh = s.cfgBh) (h3 : t.configured = s.configured) (h4 : t.mode = s.mode) (h5 : t.err = s.err)
    (h6 : t.errcode = s.errcode) (h7 : t.nblkMax = s.nblkMax) : t.Inv where
  canonical := by rw [hp]; exact h.canonical
  inStorage := by rw [hp, h7]; exact h.inStorage
  capacityPos := by rw [h7]; exact h.capacityPos
  grid := by unfold State.bw State.bh; rw [h1, h2, h3, h7]; exact h.grid
  noGrid := by rw [h1, h2, h3, h4]; exact h.noGrid
  clearRecord := by rw [h5, h6]; exact h.clearRecord
  setRecord := by rw [h5, h6]; exact h.setRecord

theorem State.Inv.withInputs {s : State} (h : s.Inv) (inputs : List HostInput) :
    State.Inv { s with inputs := inputs } := h.congr rfl rfl rfl rfl rfl rfl rfl rfl

theorem State.Inv.withResponse {s : State} (h : s.Inv) (st : Status) (r : BitVec 64) : (s.respond st r).Inv :=
  h.congr rfl rfl rfl rfl rfl rfl rfl rfl

theorem State.Inv.deliver {s : State} (h : s.Inv) : s.deliver.Inv :=
  h.congr (by simp) (by simp) (by simp) (by simp) (by simp) (by simp) (by simp) (by simp)

theorem State.Inv.nblk_le {s : State} (h : s.Inv) (hc : s.configured = true) : s.nblk ≤ s.nblkMax.toNat :=
  (h.grid hc).2.2

theorem State.Inv.pixelBlock_le {s : State} (h : s.Inv) (hc : s.configured = true) {x y : Word32}
    (hr : s.inRange x y = true) : s.pixelBlock x y + 1 ≤ s.nblkMax.toNat :=
  Nat.le_trans (State.pixelBlock_lt hr) (h.nblk_le hc)

theorem State.Inv.operandBlock_le {s : State} (h : s.Inv) (hc : s.configured = true) {bx byy : Word32}
    (hr : s.blockInRange bx byy = true) : s.operandBlock bx byy + 1 ≤ s.nblkMax.toNat :=
  Nat.le_trans (State.operandBlock_lt hr) (h.nblk_le hc)

/-- What a rejection leaves, in the statements' words. -/
theorem reject_eq_rejectedWith (e : Rejection) (s : State) : reject e s = .next (s.rejectedWith e) := rfl

/-- What a reading command leaves, in the statements' words. -/
theorem complete_eq_answered (r : BitVec 64) (s : State) : complete r s = .next (s.answered r) := rfl

/-! ### Words written stay inside the storage -/

/-- A storage all of whose words lie below an address. -/
def Memory.Below (m : Memory) (n : Nat) : Prop := ∀ cell ∈ m, cell.1 < n

theorem Memory.Below.write {m : Memory} {n a : Nat} (h : m.Below n) (ha : a < n) (v : Plane) : (m.write a v).Below n := by
  intro cell hc
  rcases Memory.mem_write hc with rfl | hc
  · exact ha
  · exact h cell hc

theorem Memory.Below.clearBelow {m : Memory} {n : Nat} (h : m.Below n) (k : Nat) : (m.clearBelow k).Below n :=
  fun cell hc => h cell (Memory.mem_clearBelow hc)

theorem Memory.Below.setPlane {m : Memory} {n b d : Nat} (h : m.Below (32 * n)) (hb : b + 1 ≤ n) (hd : d < 32)
    (v : Plane) : (m.setPlane b d v).Below (32 * n) := h.write (by unfold planeAddress; omega) v

theorem Memory.Below.blkSet {m : Memory} {n b : Nat} (h : m.Below (32 * n)) (hb : b + 1 ≤ n) (p : Nat) (color : Color) :
    (m.blkSet b p color).Below (32 * n) := by
  suffices ∀ k, k ≤ 32 → (Memory.blkSetSteps b p color k m).Below (32 * n) from this 32 le_rfl
  intro k
  induction k with
  | zero => intro _; exact h
  | succ k ih => intro hk; exact (ih (by omega)).setPlane hb (by omega) _

theorem Memory.Below.cgcBlock {m : Memory} {n b : Nat} (h : m.Below (32 * n)) (hb : b + 1 ≤ n) :
    (m.cgcBlock b).Below (32 * n) := by
  suffices ∀ k, k ≤ 31 → ∀ m : Memory, m.Below (32 * n) → (Memory.cgcSteps b k m).Below (32 * n) from this 31 le_rfl m h
  intro k
  induction k with
  | zero => intro _ m h; exact h
  | succ k ih => intro hk m h; exact ih (by omega) _ (h.setPlane hb (by omega) _)

theorem Memory.Below.pbcBlock {m : Memory} {n b : Nat} (h : m.Below (32 * n)) (hb : b + 1 ≤ n) :
    (m.pbcBlock b).Below (32 * n) := by
  suffices ∀ k, k ≤ 31 → (Memory.pbcSteps b k m).Below (32 * n) from this 31 le_rfl
  intro k
  induction k with
  | zero => intro _; exact h
  | succ k ih => intro hk; exact (ih (by omega)).setPlane hb (by omega) _

theorem Memory.Below.eachBlock {op : Memory → Nat → Memory} {n : Nat}
    (hop : ∀ (m : Memory) b, b + 1 ≤ n → m.Below (32 * n) → (op m b).Below (32 * n)) {m : Memory}
    (h : m.Below (32 * n)) {k : Nat} (hk : k ≤ n) : (Memory.eachBlock op k m).Below (32 * n) := by
  induction k with
  | zero => exact h
  | succ k ih => exact hop _ _ hk (ih (by omega))

end Sys2Proof.Machine
end

