-- ==== Sys2Proof/Tests/Slice0.lean ====
section
/-! SUPPORT. The model's own tests: ill-formed terms the checks refuse, words written out from 30_encoding.md, one step
of each command with the value the spec's vectors give, and for each statement a concrete case of its hypotheses.
Expected values are the spec's (95_test_vectors.md, and the examples of the command rules). -/

namespace Sys2Proof.Tests

open Sys2Proof.Machine

/-! ### States -/

/-- A unit fresh from reset with `NBLK_MAX = 16`, as in 95_test_vectors.md. -/
def fresh : State := { State.reset with nblkMax := 16 }

/-- A grid of so many blocks, all planes zero, on that unit. -/
def grid (bw bh : Word32) : State := { fresh with cfgBw := bw, cfgBh := bh, configured := true }

/-- After `CONFIG 9, 19`. -/
def small : State := grid 1 2

/-- After `CONFIG 9, 19` and `SETCOLOR 3, 10, 0x00FF0000` (41_pixel_codec.md R76). -/
def painted : State := { small with
  planes := [(48, 0x80000), (49, 0x80000), (50, 0x80000), (51, 0x80000), (52, 0x80000), (53, 0x80000), (54, 0x80000),
    (55, 0x80000)] }

/-- After `CONFIG 17, 17`. -/
def quad : State := grid 2 2

/-- One block in which pixel (0,0) holds a value of depth 2 and pixel (1,0) one of depth 0. -/
def dots : State := { grid 1 1 with planes := [(0, 2), (2, 1)] }

/-- The response an outcome leaves to be delivered. -/
def responseOf : Result → Option Response
  | .next s => s.inProgress
  | _ => none

/-- The words an outcome leaves in the storage. -/
def planesOf : Result → Option Memory
  | .next s => some s.planes
  | _ => none

/-- The error record an outcome leaves. -/
def recordOf : Result → Option (Bool × BitVec 4)
  | .next s => some (s.err, s.errcode)
  | _ => none

/-- The flags and geometry an outcome leaves. -/
def gridOf : Result → Option (Bool × CodingMode × Word32 × Word32)
  | .next s => some (s.configured, s.mode, s.cfgBw, s.cfgBh)
  | _ => none

/-- A response that completes. -/
def ok (r : BitVec 64) : Option Response := some ⟨.ok, r⟩

/-- A response that rejects. -/
def rejected (e : Rejection) : Option Response := some ⟨.rejected e, 0⟩

/-! ### The checks refuse what is ill-formed -/

theorem test_wellFormed_reserved_bits : Command.wellFormed ⟨0x00000101, 0, 0, 0, 0⟩ = false := by decide
theorem test_wellFormed_reserved_top_bit : Command.wellFormed ⟨0x80000009, 0, 0, 0, 0⟩ = false := by decide
theorem test_wellFormed_opcode_zero : Command.wellFormed ⟨0x00000000, 0, 0, 0, 0⟩ = false := by decide
theorem test_wellFormed_opcode_above : Command.wellFormed ⟨0x0000000E, 0, 0, 0, 0⟩ = false := by decide
theorem test_wellFormed_last : Command.wellFormed ⟨0x0000000D, 7, 7, 7, 7⟩ = true := by decide
theorem test_literal_bounds_32 :
    Literal.fits32 (-2147483649) = false ∧ Literal.fits32 (-2147483648) = true ∧
    Literal.fits32 4294967295 = true ∧ Literal.fits32 4294967296 = false := by decide
theorem test_literal_bounds_64 :
    Literal.fits64 (-1) = false ∧ Literal.fits64 18446744073709551615 = true ∧
    Literal.fits64 18446744073709551616 = false := by decide

/-! ### Words written out from the opcode map (30_encoding.md R51, R54; 95_test_vectors.md V1) -/

theorem test_decode_config : decodeTableWord 32 0b00000000000000000000000000000001 = some (.config 0 0) := by decide
theorem test_decode_inrange : decodeTableWord 32 0b00000000000000000000000000000010 = some (.inrange 0 0) := by decide
theorem test_decode_getbw : decodeTableWord 32 0b00000000000000000000000000000011 = some .getbw := by decide
theorem test_decode_getbh : decodeTableWord 32 0b00000000000000000000000000000100 = some .getbh := by decide
theorem test_decode_setcolor : decodeTableWord 32 0b00000000000000000000000000000101 = some (.setcolor 0 0 0) := by
  decide
theorem test_decode_getcolor : decodeTableWord 32 0b00000000000000000000000000000110 = some (.getcolor 0 0) := by decide
theorem test_decode_getplane : decodeTableWord 32 0b00000000000000000000000000000111 = some (.getplane 0 0 0) := by
  decide
theorem test_decode_setplane : decodeTableWord 32 0b00000000000000000000000000001000 = some (.setplane 0 0 0 0) := by
  decide
theorem test_decode_tocgc : decodeTableWord 32 0b00000000000000000000000000001001 = some .tocgc := by decide
theorem test_decode_topbc : decodeTableWord 32 0b00000000000000000000000000001010 = some .topbc := by decide
theorem test_decode_rdstat : decodeTableWord 32 0b00000000000000000000000000001011 = some .rdstat := by decide
theorem test_decode_clrerr : decodeTableWord 32 0b00000000000000000000000000001100 = some .clrerr := by decide
theorem test_decode_getcap : decodeTableWord 32 0b00000000000000000000000000001101 = some .getcap := by decide
/-- `SETPLANE 0, 0, 5, 0xFFFF` of program P3, its ports in the order A, B, C, D above the command word. -/
theorem test_decode_ports :
    decodeTableWord 192 0x000000000000FFFF_00000005_00000002_00000001_00000008 = some (.setplane 1 2 5 0xFFFF) := by
  decide
/-- 95_test_vectors.md V1: the illegal words. -/
theorem test_decode_illegal :
    decodeTableWord 32 0x00000000 = none ∧ decodeTableWord 32 0x0000000E = none ∧ decodeTableWord 32 0x000000FF = none ∧
    decodeTableWord 32 0x00000101 = none ∧ decodeTableWord 32 0x80000009 = none := by decide

/-! ### One step of each command -/

/-- V2: `CONFIG 24, 25` gives a grid of 2 by 3 blocks. -/
theorem test_config_truncates : gridOf (exec (.config 24 25) fresh) = some (true, .pbc, 2, 3) := by decide
/-- V2: `CONFIG 33, 41` needs 20 blocks of 16, and `CONFIG 8, 0x7FFFFFFF` fails its dimension first. -/
theorem test_config_rejects :
    responseOf (exec (.config 33 41) fresh) = rejected .capacity ∧
    responseOf (exec (.config 8 0x7FFFFFFF) fresh) = rejected .dim ∧
    responseOf (exec (.config 8 8) small) = rejected .state := by decide
/-- V2: INRANGE after `CONFIG 9, 19`. -/
theorem test_inrange :
    responseOf (exec (.inrange 7 15) small) = ok 1 ∧ responseOf (exec (.inrange 8 0) small) = ok 0 ∧
    responseOf (exec (.inrange 0 16) small) = ok 0 ∧ responseOf (exec (.inrange 0xFFFFFFFF 0) small) = ok 0 := by decide
theorem test_getbw : responseOf (exec .getbw small) = ok 1 := by decide
theorem test_getbh : responseOf (exec .getbh small) = ok 2 := by decide
/-- R70: `NBLK_MAX = 16`, with no grid. -/
theorem test_getcap : responseOf (exec .getcap fresh) = ok 0x0000000000000010 := by decide
/-- V3.2: block (1,2) of a 3 by 3 grid is `b = 7`, `p = 45`; planes 16, 17, 19, 21 and 23 hold the value's bits. -/
theorem test_setcolor :
    planesOf (exec (.setcolor 13 21 0x00AB0000) (grid 3 3)) = some
      [(240, 0x0000200000000000), (241, 0x0000200000000000), (243, 0x0000200000000000), (245, 0x0000200000000000),
       (247, 0x0000200000000000)] := by decide +kernel
/-- V6.5 and V3.7: `E_PIXEL` on the first coordinate past the grid, and on a negative one. -/
theorem test_setcolor_rejects :
    recordOf (exec (.setcolor 8 16 0) small) = some (true, 5) ∧
    responseOf (exec (.setcolor 0 0xFFFFFFFF 1) (grid 3 3)) = rejected .pixel := by decide
/-- R77. -/
theorem test_getcolor : responseOf (exec (.getcolor 3 10) painted) = ok 0x0000000000FF0000 := by decide +kernel
theorem test_getcolor_rejects : responseOf (exec (.getcolor 8 0) painted) = rejected .pixel := by decide
/-- R81: the plane with the pixel's bit, and one without it. -/
theorem test_getplane :
    responseOf (exec (.getplane 0 1 16) painted) = ok 0x0000000000080000 ∧
    responseOf (exec (.getplane 0 1 24) painted) = ok 0 := by decide +kernel
/-- V4.6, V4.8 and V6.7. -/
theorem test_getplane_rejects :
    responseOf (exec (.getplane 2 0 0) quad) = rejected .block ∧
    responseOf (exec (.getplane 0 0 0xFFFFFFFF) quad) = rejected .depth ∧
    responseOf (exec (.getplane 0 2 0) small) = rejected .block := by decide
/-- V4.1: plane 31 of block (1,1), flat index 3. -/
theorem test_setplane :
    planesOf (exec (.setplane 1 1 31 0x8000000000000001) quad) = some [(127, 0x8000000000000001)] := by decide +kernel
/-- V4.9: the block is checked before the depth. -/
theorem test_setplane_rejects : responseOf (exec (.setplane 0 2 99 1) quad) = rejected .block := by decide
/-- V5, plane-level vector. -/
theorem test_tocgc :
    planesOf (exec .tocgc { grid 1 1 with planes := [(0, 0xFF), (1, 0xF0F0)] }) =
      some [(0, 0xFF), (1, 0xF00F), (2, 0xF0F0)] := by decide +kernel
theorem test_tocgc_mode : gridOf (exec .tocgc small) = some (true, .cgc, 1, 2) := by decide +kernel
/-- V5, plane-level vector, back. -/
theorem test_topbc :
    planesOf (exec .topbc { grid 1 1 with planes := [(0, 0xFF), (1, 0xF00F), (2, 0xF0F0)], mode := .cgc }) =
      some [(0, 0xFF), (1, 0xF0F0)] := by decide +kernel
/-- V5: before any CONFIG the transforms are rejected. -/
theorem test_topbc_rejects :
    gridOf (exec .topbc fresh) = some (false, .pbc, 0, 0) ∧ responseOf (exec .topbc fresh) = rejected .state := by decide
/-- R96, V6: 0x55 after a rejected pixel access, 0x03 after TOCGC, 0x24 after an access before CONFIG. -/
theorem test_rdstat :
    responseOf (exec .rdstat { small with err := true, errcode := 5 }) = ok 0x55 ∧
    responseOf (exec .rdstat { small with mode := .cgc }) = ok 0x03 ∧
    responseOf (exec .rdstat { fresh with err := true, errcode := 2 }) = ok 0x24 := by decide
theorem test_clrerr : recordOf (exec .clrerr { small with err := true, errcode := 5 }) = some (false, 0) := by decide
/-- V6.9: the first error is kept. -/
theorem test_first_error_kept :
    recordOf (exec (.getplane 0 0 40) { small with err := true, errcode := 5 }) = some (true, 5) := by decide

/-! ### The step and the host's word -/

/-- From reset, with no value of `NBLK_MAX` known: GETCOLOR is rejected with `E_STATE` and answered (V6.1). -/
theorem test_step_from_reset :
    (match step (State.reset.withFetchWord 32 0x00000006) with
      | .next s => (s.responses, s.err, s.errcode, s.inProgress)
      | _ => ([], false, 0, none)) = ([⟨.rejected .state, 0⟩], true, 2, none) := by decide
/-- V1: an illegal word, from reset. -/
theorem test_step_illegal :
    (match step (fresh.withFetchWord 32 0x00000101) with
      | .next s => (s.responses, s.err, s.errcode, s.configured)
      | _ => ([], false, 0, true)) = ([⟨.rejected .illegal, 0⟩], true, 1, false) := by decide
/-- S1: a step of `CONFIG 9, 19`, its ports above the word. -/
theorem test_step_config :
    (match step (fresh.withFetchWord 192 0x00000013_00000009_00000001) with
      | .next s => (s.responses, s.cfgBw, s.cfgBh)
      | _ => ([], 0, 0)) = ([⟨.ok, 0⟩], 1, 2) := by decide
/-- R116: reset forgets the grid and keeps the storage's words. -/
theorem test_step_reset :
    (match step { painted with inputs := [.reset] } with
      | .next s => (s.configured, s.cfgBw, s.cfgBh, s.planes == painted.planes)
      | _ => (true, 0, 0, false)) = (false, 0, 0, true) := by decide

/-! ### The assembler and the listing (30_encoding.md R58, R59, R61) -/

theorem test_assemble :
    assembleLine "SETCOLOR 3, 10, 0x00FF0000 ; red".toList = .ok (some ⟨5, 3, 10, 0x00FF0000, 0⟩) := by decide +kernel
/-- R59: `-1` and `0xFFFFFFFF` encode the same pattern. -/
theorem test_assemble_negative :
    assembleLine "GETCOLOR -1, 0".toList = assembleLine "GETCOLOR 0xFFFFFFFF, 0".toList := by decide +kernel
theorem test_assemble_refuses :
    assembleLine "GETCOLOR 4294967296, 0".toList = .error .literalRange ∧
    assembleLine "GETBW 1".toList = .error .operandCount ∧ assembleLine "NOP".toList = .error .unknownMnemonic ∧
    assembleLine "; a comment".toList = .ok none := by decide +kernel
/-- R61's own example. -/
theorem test_listing :
    listCommand (.setcolor 3 10 0x00FF0000) = "CMD=0x00000005 A=0x00000003 B=0x0000000A C=0x00FF0000".toList := by
  decide +kernel
theorem test_listing_response :
    listResponse ⟨.rejected .pixel, 0⟩ = "-> STATUS=E_PIXEL RESULT=0x0000000000000000".toList := by decide +kernel

/-! ### Parameters (00_scope.md R6) -/

theorem test_parameters :
    Config.planeBits = Config.side * Config.side ∧ Config.colorBits = Config.nch * Config.chb ∧
    Config.nplanes = Config.colorBits := by decide

/-! ### Concrete cases of the hypotheses of each statement -/

/-- `painted` with these inputs waiting. -/
def given (inputs : List HostInput) : State := { painted with inputs := inputs }

/-- `GETPLANE 0, 1, 16`. -/
def readPlane : Command := ⟨0x00000007, 0, 1, 16, 0⟩

theorem fresh_inv : fresh.Inv := by constructor <;> decide
theorem small_inv : small.Inv := by constructor <;> decide
theorem painted_inv : painted.Inv := by constructor <;> decide
theorem quad_inv : quad.Inv := by constructor <;> decide
theorem dots_inv : dots.Inv := by constructor <;> decide

theorem witness_DecodeAndEncodeAgree : decode ⟨0x0000000B, 1, 2, 3, 4⟩ = .ok .rdstat := rfl

theorem witness_StepRunsTheDecodedCommand :
    (given [.command readPlane]).inProgress = none ∧ (given [.command readPlane]).inputs = .command readPlane :: [] ∧
    decode readPlane = .ok (.getplane 0 1 16) := ⟨rfl, rfl, rfl⟩

theorem witness_EachCommandIsAnsweredOnce :
    (given [.command readPlane]).inProgress = none ∧ (given [.command readPlane]).inputs = .command readPlane :: [] ∧
    ∃ t, step (given [.command readPlane]) = .next t := ⟨rfl, rfl, _, rfl⟩

/-- A reserved bit, opcode 0, and the first opcode above the map. -/
theorem witness_ReservedWordsAreRejected :
    (given [.command ⟨0x00000101, 0, 0, 0, 0⟩]).inProgress = none ∧
    ((⟨0x00000101, 0, 0, 0, 0⟩ : Command).cmd.extractLsb' 8 24 ≠ 0) ∧
    ((⟨0x00000000, 0, 0, 0, 0⟩ : Command).cmd.extractLsb' 0 8 = 0x00#8) ∧
    (0x0E#8 ≤ (⟨0x0000000E, 0, 0, 0, 0⟩ : Command).cmd.extractLsb' 0 8) := by decide

theorem witness_IdleUnitKeepsItsState : painted.inputs = [] ∧ painted.inProgress = none := ⟨rfl, rfl⟩

theorem witness_ResetInputResets : (given [.reset]).inputs = .reset :: [] := rfl

theorem witness_ResetAbandonsTheCommandInProgress :
    ({ given [.reset] with inProgress := some ⟨.ok, 0⟩ } : State).inProgress = some ⟨.ok, 0⟩ ∧
    ({ given [.reset] with inProgress := some ⟨.ok, 0⟩ } : State).inputs = .reset :: [] ∧
    (given [.commandCutByReset readPlane]).Inv ∧ (given [.commandCutByReset readPlane]).inProgress = none ∧
    (given [.commandCutByReset readPlane]).inputs = .commandCutByReset readPlane :: [] :=
  ⟨rfl, rfl, painted_inv.withInputs _, rfl, rfl⟩

theorem witness_RejectionWritesOnlyTheErrorRecord :
    ∃ t, perform readPlane fresh = .next t ∧ t.inProgress = some ⟨.rejected .state, 0⟩ := ⟨_, rfl, rfl⟩

theorem witness_SuccessKeepsTheErrorRecord :
    ∃ t, exec .getbw { small with err := true, errcode := 5 } = .next t ∧ t.inProgress = some ⟨.ok, 1⟩ ∧
      Instr.getbw ≠ .clrerr := ⟨_, rfl, by decide, by decide⟩

theorem witness_StatusFollowsTheCheckOrder :
    quad.Inv ∧ decode ⟨0x80000009, 0, 0, 0, 0⟩ = .error .reservedBits := ⟨quad_inv, rfl⟩

theorem witness_StepKeepsTheInvariant :
    (given [.command readPlane]).Inv ∧ ∃ t, step (given [.command readPlane]) = .next t :=
  ⟨painted_inv.withInputs _, _, rfl⟩

theorem witness_StepNeverStops : (given [.commandCutByReset readPlane]).Inv := painted_inv.withInputs _

/-- A run of two commands, the second of them illegal; the same state meets the hypotheses of both run statements. -/
theorem witness_RunAnswersEveryCommand :
    (given ([readPlane, ⟨0, 0, 0, 0, 0⟩].map .command)).Inv ∧
    (given ([readPlane, ⟨0, 0, 0, 0, 0⟩].map .command)).Waiting [readPlane, ⟨0, 0, 0, 0, 0⟩] :=
  ⟨painted_inv.withInputs _, rfl, rfl⟩

theorem witness_RunAppliesCommandsInOrder :
    (given ([readPlane, ⟨0, 0, 0, 0, 0⟩].map .command)).Inv ∧
    (given ([readPlane, ⟨0, 0, 0, 0, 0⟩].map .command)).Waiting [readPlane, ⟨0, 0, 0, 0, 0⟩] :=
  witness_RunAnswersEveryCommand

/-- No grid and different planes; and a grid of two blocks with a difference in the first word past them. -/
theorem witness_UnusedPlanesAreNotObservable :
    (fresh.SameToHost { fresh with planes := [(0, 1)] } ∧ ∃ t, step fresh = .next t) ∧
    ((given [.command readPlane]).SameToHost
        { given [.command readPlane] with planes := painted.planes ++ [(64, 1)] } ∧
      ∃ t, step (given [.command readPlane]) = .next t) :=
  ⟨⟨⟨rfl, fun h => by cases h⟩, _, rfl⟩, ⟨rfl, fun _ => by decide +kernel⟩, _, rfl⟩

theorem witness_ConfiguredGridIsFixed :
    small.configured = true ∧ ∃ t, perform ⟨0x00000001, 24, 25, 0, 0⟩ small = .next t := ⟨rfl, _, rfl⟩

theorem witness_CapacityNeverChanges : ∃ t, step (given [.reset]) = .next t := ⟨_, rfl⟩

/-- The first word past the blocks of a configured grid, and of none. -/
theorem witness_BlocksOutsideTheGridAreNotWritten :
    (∃ t, perform ⟨0x00000005, 0, 0, 1, 0⟩ small = .next t ∧ 32 * (t.cfgBw.toNat * t.cfgBh.toNat) ≤ 64) ∧
    ∃ t, perform ⟨0x00000009, 0, 0, 0, 0⟩ fresh = .next t ∧ 32 * (t.cfgBw.toNat * t.cfgBh.toNat) ≤ 0 :=
  ⟨⟨_, rfl, by decide⟩, _, rfl, by decide⟩

/-- A transform that completes, CONFIG, a command that is neither, and a rejected transform. -/
theorem witness_ModeIsSetByTransformsAndConfig :
    (∃ t, exec .tocgc small = .next t ∧ t.inProgress = some ⟨.ok, 0⟩) ∧
    (∃ t, exec .topbc small = .next t ∧ t.inProgress = some ⟨.ok, 0⟩) ∧
    (∃ t, exec (.config 9 19) fresh = .next t ∧ t.inProgress = some ⟨.ok, 0⟩) ∧
    (∃ t, exec (.setplane 0 0 0 1) small = .next t ∧ t.inProgress = some ⟨.ok, 0⟩) ∧
    ∃ t, exec .tocgc fresh = .next t ∧ t.inProgress = some ⟨.rejected .state, 0⟩ :=
  ⟨⟨_, rfl, rfl⟩, ⟨_, rfl, rfl⟩, ⟨_, rfl, rfl⟩, ⟨_, rfl, rfl⟩, _, rfl, rfl⟩

theorem witness_ModeGatesNothing : ∃ t, exec (.getcolor 3 10) painted = .next t := ⟨_, rfl⟩

/-- Each clause: a pixel, a plane, and a transform of two grids that agree in block 1 only. -/
theorem witness_BlocksAreIndependent :
    (quad.inRange 15 15 = true ∧ ∃ t, exec (.setcolor 15 15 1) quad = .next t) ∧
    (∃ t, exec (.setplane 1 1 31 1) quad = .next t) ∧
    (∃ t t', exec .tocgc small = .next t ∧ exec .tocgc { small with planes := [(0, 1)] } = .next t' ∧
      ∀ d, d < 32 → ({ small with planes := [(0, 1)] } : State).plane 1 d = small.plane 1 d) :=
  ⟨⟨by decide, _, rfl⟩, ⟨_, rfl⟩, _, _, rfl, rfl, by decide⟩

/-- The four paths of CONFIG at their edges: a grid, a dimension of 8, 17 blocks of 16, and 16 blocks of 16. -/
theorem witness_ConfigConstructsTheGrid :
    small.configured = true ∧
    (fresh.configured = false ∧ ¬ ((8 : Word32).toInt > 8 ∧ (9 : Word32).toInt > 8)) ∧
    ((9 : Word32).toInt > 8 ∧ (137 : Word32).toInt > 8 ∧
      ((9 : Word32).toInt - 1) / 8 * (((137 : Word32).toInt - 1) / 8) > fresh.nblkMax.toNat) ∧
    ((9 : Word32).toInt > 8 ∧ (136 : Word32).toInt > 8 ∧
      ((9 : Word32).toInt - 1) / 8 * (((136 : Word32).toInt - 1) / 8) ≤ fresh.nblkMax.toNat) := by decide

/-- A request of 9 and one that is a multiple of 8. -/
theorem witness_EffectiveDimensionsAreTruncated :
    ∃ t, exec (.config 9 16) fresh = .next t ∧ t.inProgress = some ⟨.ok, 0⟩ := ⟨_, rfl, rfl⟩

theorem witness_InrangeTestsTheCoordinate : fresh.configured = false ∧ small.configured = true := ⟨rfl, rfl⟩

theorem witness_GeometryQueriesRead : fresh.configured = false ∧ small.Inv ∧ small.configured = true :=
  ⟨rfl, small_inv, rfl⟩

theorem witness_ConfigSucceedsAtMostOnce :
    (given ([readPlane, ⟨0, 0, 0, 0, 0⟩].map .command)).configured = true ∧
    (given ([readPlane, ⟨0, 0, 0, 0, 0⟩].map .command)).Waiting [readPlane, ⟨0, 0, 0, 0, 0⟩] ∧
    ∃ t, Host.Core.run Sys2Proof.core 2 (given ([readPlane, ⟨0, 0, 0, 0, 0⟩].map .command)) = .next t :=
  ⟨rfl, ⟨rfl, rfl⟩, _, rfl⟩

/-- No grid; the first column past it, and a negative one; the last pixel, in block 3 at position 63. -/
theorem witness_SetcolorWritesThePixel :
    fresh.configured = false ∧ quad.Inv ∧ quad.configured = true ∧
    ¬ (0 ≤ (16 : Word32).toInt ∧ (16 : Word32).toInt < 8 * quad.cfgBw.toNat ∧
      0 ≤ (0 : Word32).toInt ∧ (0 : Word32).toInt < 8 * quad.cfgBh.toNat) ∧
    ¬ (0 ≤ (0 : Word32).toInt ∧ (0 : Word32).toInt < 8 * quad.cfgBw.toNat ∧
      0 ≤ (0xFFFFFFFF : Word32).toInt ∧ (0xFFFFFFFF : Word32).toInt < 8 * quad.cfgBh.toNat) ∧
    (0 ≤ (15 : Word32).toInt ∧ (15 : Word32).toInt < 8 * quad.cfgBw.toNat ∧
      0 ≤ (15 : Word32).toInt ∧ (15 : Word32).toInt < 8 * quad.cfgBh.toNat) ∧
    3 = (15 : Word32).toInt.toNat / 8 * quad.cfgBw.toNat + (15 : Word32).toInt.toNat / 8 ∧
    63 = 8 * ((15 : Word32).toInt.toNat % 8) + (15 : Word32).toInt.toNat % 8 :=
  ⟨by decide, quad_inv, by decide⟩

theorem witness_GetcolorReadsThePixel :
    fresh.configured = false ∧ painted.Inv ∧ painted.configured = true ∧
    ¬ (0 ≤ (0 : Word32).toInt ∧ (0 : Word32).toInt < 8 * painted.cfgBw.toNat ∧
      0 ≤ (16 : Word32).toInt ∧ (16 : Word32).toInt < 8 * painted.cfgBh.toNat) ∧
    (0 ≤ (3 : Word32).toInt ∧ (3 : Word32).toInt < 8 * painted.cfgBw.toNat ∧
      0 ≤ (10 : Word32).toInt ∧ (10 : Word32).toInt < 8 * painted.cfgBh.toNat) ∧
    1 = (10 : Word32).toInt.toNat / 8 * painted.cfgBw.toNat + (3 : Word32).toInt.toNat / 8 ∧
    19 = 8 * ((10 : Word32).toInt.toNat % 8) + (3 : Word32).toInt.toNat % 8 :=
  ⟨by decide, painted_inv, by decide⟩

/-- A write of the pixel, then one of its neighbour, one of a plane of the block above, and a second CONFIG. -/
theorem witness_SetThenGetReturnsTheColor :
    ∃ t u, small.Inv ∧ exec (.setcolor 3 10 0x00FF0000) small = .next t ∧ t.inProgress = some ⟨.ok, 0⟩ ∧
      (∀ c ∈ ([⟨5, 4, 10, 1, 0⟩, ⟨8, 0, 0, 16, 0xFF⟩, ⟨1, 24, 25, 0, 0⟩] : List Command), ¬ writesPixel 3 10 c) ∧
      applyAll [⟨5, 4, 10, 1, 0⟩, ⟨8, 0, 0, 16, 0xFF⟩, ⟨1, 24, 25, 0, 0⟩] t = .next u := by
  refine ⟨_, _, small_inv, rfl, rfl, fun c hc => ?_, rfl⟩
  simp only [List.mem_cons, List.not_mem_nil, or_false] at hc
  rcases hc with rfl | rfl | rfl
  · exact fun h => absurd h.1 (by decide)
  · exact fun h => absurd h.2 (by decide)
  · exact fun h => h

theorem getcolor_dots : exec (.getcolor 0 0) dots = .next (dots.answered 4) ∧
    exec (.getcolor 1 0) dots = .next (dots.answered 1) := ⟨rfl, rfl⟩

/-- R76's example, as a whole state. -/
theorem setcolor_small : exec (.setcolor 3 10 0x00FF0000) (small.answered 0) = .next (painted.answered 0) := by
  have planes : Memory.blkSet [] 1 19 0x00FF0000 = painted.planes := by decide +kernel
  show complete 0 { small.answered 0 with planes := Memory.blkSet [] 1 19 0x00FF0000 } = _
  rw [planes]
  rfl

/-- R77's example, as a whole state. -/
theorem getcolor_painted :
    exec (.getcolor 3 10) (painted.answered 0) = .next (painted.answered 0x00FF0000) := by
  have value : painted.planes.blkGet 1 19 = 0x00FF0000 := by decide +kernel
  show complete ((painted.planes.blkGet 1 19).zeroExtend 64) (painted.answered 0) = _
  rw [value]
  rfl

theorem witness_SetcolorKeepsOtherPixelsAndChannels :
    (dots.Inv ∧ (0, 0) ≠ ((1, 0) : Word32 × Word32) ∧ exec (.getcolor 0 0) dots = .next (dots.answered 4) ∧
      ∃ t, exec (.setcolor 1 0 0xFFFFFFFF) dots = .next t) ∧
    (fresh.Inv ∧ exec (.config 9 19) fresh = .next (small.answered 0) ∧
      exec (.setcolor 3 10 0x00FF0000) (small.answered 0) = .next (painted.answered 0) ∧
      exec (.getcolor 3 10) (painted.answered 0) = .next (painted.answered 0x00FF0000) ∧
      (painted.answered 0x00FF0000).inProgress = some ⟨.ok, 0x00FF0000⟩ ∧
      channel 0x00FF0000 0 = 0 ∧ channel 0x00FF0000 1 = 0 ∧ channel 0x00FF0000 3 = 0) :=
  ⟨⟨dots_inv, by decide, getcolor_dots.1, _, rfl⟩, fresh_inv, rfl, setcolor_small, getcolor_painted, rfl, by decide⟩

theorem witness_PlaneAndPixelViewsAgree :
    painted.Inv ∧ painted.configured = true ∧
    (0 ≤ (3 : Word32).toInt ∧ (3 : Word32).toInt < 8 * painted.cfgBw.toNat ∧
      0 ≤ (10 : Word32).toInt ∧ (10 : Word32).toInt < 8 * painted.cfgBh.toNat) ∧
    (0 : Word32).toInt = (3 : Word32).toInt / 8 ∧ (1 : Word32).toInt = (10 : Word32).toInt / 8 ∧
    (0 ≤ (31 : Word32).toInt ∧ (31 : Word32).toInt < 32) := ⟨painted_inv, by decide⟩

/-- No grid; the first block past it; the first depth past the block, and a negative one; the last plane. -/
theorem witness_GetplaneReadsThePlane :
    fresh.configured = false ∧ quad.Inv ∧ quad.configured = true ∧
    ¬ (0 ≤ (0 : Word32).toInt ∧ (0 : Word32).toInt < quad.cfgBw.toNat ∧
      0 ≤ (2 : Word32).toInt ∧ (2 : Word32).toInt < quad.cfgBh.toNat) ∧
    (0 ≤ (1 : Word32).toInt ∧ (1 : Word32).toInt < quad.cfgBw.toNat ∧
      0 ≤ (1 : Word32).toInt ∧ (1 : Word32).toInt < quad.cfgBh.toNat) ∧
    ¬ (0 ≤ (32 : Word32).toInt ∧ (32 : Word32).toInt < 32) ∧
    ¬ (0 ≤ (0xFFFFFFFF : Word32).toInt ∧ (0xFFFFFFFF : Word32).toInt < 32) ∧
    (0 ≤ (31 : Word32).toInt ∧ (31 : Word32).toInt < 32) := ⟨by decide, quad_inv, by decide⟩

/-- The operands and states of `witness_GetplaneReadsThePlane` meet the same hypotheses. -/
theorem witness_SetplaneWritesThePlane :
    fresh.configured = false ∧ quad.Inv ∧ quad.configured = true ∧
    ¬ (0 ≤ (0xFFFFFFFF : Word32).toInt ∧ (0xFFFFFFFF : Word32).toInt < quad.cfgBw.toNat ∧
      0 ≤ (0 : Word32).toInt ∧ (0 : Word32).toInt < quad.cfgBh.toNat) ∧
    (0 ≤ (0 : Word32).toInt ∧ (0 : Word32).toInt < quad.cfgBw.toNat ∧
      0 ≤ (1 : Word32).toInt ∧ (1 : Word32).toInt < quad.cfgBh.toNat) ∧
    ¬ (0 ≤ (32 : Word32).toInt ∧ (32 : Word32).toInt < 32) ∧
    (0 ≤ (0 : Word32).toInt ∧ (0 : Word32).toInt < 32) := ⟨by decide, quad_inv, by decide⟩

theorem witness_PlaneWritesAreReadBack :
    quad.Inv ∧ (∃ t, exec (.setplane 1 1 31 7) quad = .next t ∧ t.inProgress = some ⟨.ok, 0⟩) ∧
    (0, 1, 31) ≠ ((1, 1, 31) : Word32 × Word32 × Word32) ∧
    exec (.getplane 0 1 31) quad = .next (quad.answered 0) := ⟨quad_inv, ⟨_, rfl, rfl⟩, by decide, rfl⟩

theorem witness_TocgcRunsTheForwardCascade :
    fresh.configured = false ∧ dots.Inv ∧ dots.configured = true ∧ 0 < dots.cfgBw.toNat * dots.cfgBh.toNat :=
  ⟨by decide, dots_inv, by decide⟩

theorem witness_TopbcRunsTheInverseCascade :
    fresh.configured = false ∧ quad.Inv ∧ quad.configured = true ∧ 3 < quad.cfgBw.toNat * quad.cfgBh.toNat :=
  ⟨by decide, quad_inv, by decide⟩

theorem witness_TransformsAreInverse : dots.Inv ∧ dots.configured = true := ⟨dots_inv, rfl⟩

theorem witness_TransformsActPixelByPixel :
    dots.Inv ∧ exec (.getcolor 0 0) dots = .next (dots.answered ((4 : Color).zeroExtend 64)) :=
  ⟨dots_inv, getcolor_dots.1⟩

theorem witness_NeitherTransformIsSelfInverse :
    dots.Inv ∧ exec (.getcolor 0 0) dots = .next (dots.answered 4) ∧
    exec (.getcolor 1 0) dots = .next (dots.answered 1) := ⟨dots_inv, getcolor_dots⟩

theorem witness_ReadersChangeNothing :
    (∃ x y, Instr.getcolor 3 10 = .getcolor x y) ∧
    ∃ t, exec (.getcolor 3 10) painted = .next t ∧ t.inProgress = some ⟨.ok, 0x00FF0000⟩ :=
  ⟨⟨_, _, rfl⟩, _, rfl, rfl⟩

theorem witness_WritersAreIdempotent :
    (∃ x y color, Instr.setcolor 15 15 1 = .setcolor x y color) ∧ quad.Inv ∧
    ∃ t, exec (.setcolor 15 15 1) quad = .next t ∧ t.inProgress = some ⟨.ok, 0⟩ :=
  ⟨⟨_, _, _, rfl⟩, quad_inv, _, rfl, rfl⟩

theorem witness_ZeroingIsTheLoopOfWrites : painted.planes.wf := painted_inv.canonical

theorem witness_PortResetAbandons : (⟨true, true, readPlane⟩ : Pins).rst = true := rfl

/-- For every value of the open latency: that many edges and one, on which the host changes its pins. -/
theorem witness_PortRefinesTheStep :
    ∃ u r, painted.inProgress = none ∧ perform readPlane painted = .next u ∧ u.inProgress = some r ∧
      ∃ later : List Pins, later.length = latency readPlane u.nblk + 1 ∧ ∀ pins ∈ later, pins.rst = false :=
  ⟨_, _, rfl, rfl, rfl, List.replicate _ ⟨false, true, ⟨0, 0, 0, 0, 0⟩⟩, List.length_replicate,
    fun _ h => (List.mem_replicate.mp h).2 ▸ rfl⟩

theorem witness_HexLiteralsReadBack : 1 ≤ 8 ∧ 4294967295 < 16 ^ 8 := by decide

/-- The first and last integers a 32-bit operand takes, and the ones before and after; the same for 64 bits. -/
theorem witness_LiteralsAreRangeChecked :
    parseLiteral "-2147483648".toList = some (-(2 ^ 31)) ∧ parseLiteral "4294967295".toList = some (2 ^ 32 - 1) ∧
    parseLiteral "-2147483649".toList = some (-(2 ^ 31) - 1) ∧ parseLiteral "0x100000000".toList = some (2 ^ 32) ∧
    parseLiteral "-1".toList = some (-1) ∧ parseLiteral "0xFFFFFFFFFFFFFFFF".toList = some (2 ^ 64 - 1) ∧
    parseLiteral "18446744073709551616".toList = some (2 ^ 64) := by decide +kernel

/-- Two commands of one opcode whose latency is one integer, and two of one whose latency may vary. -/
theorem witness_OpenParametersMeetTheirConstraints :
    (decode readPlane = .ok (.getplane 0 1 16) ∧ decode ⟨7, 2, 2, 2, 2⟩ = .ok (.getplane 2 2 2) ∧
      readPlane.op = (⟨7, 2, 2, 2, 2⟩ : Command).op ∧
      readPlane.op ≠ 0x01#8 ∧ readPlane.op ≠ 0x09#8 ∧ readPlane.op ≠ 0x0A#8) ∧
    (decode ⟨1, 9, 19, 0, 0⟩ = .ok (.config 9 19) ∧ decode ⟨1, 24, 25, 0, 0⟩ = .ok (.config 24 25) ∧
      (⟨1, 9, 19, 0, 0⟩ : Command).op = (⟨1, 24, 25, 0, 0⟩ : Command).op) := by
  refine ⟨⟨rfl, rfl, by decide, by decide, by decide, by decide⟩, rfl, rfl, by decide⟩

end Sys2Proof.Tests
end

