-- ==== Sys2Proof/Proofs/Answers.lean ====
section
/-! PROOF. In a state that meets the invariant every check, command and host input leads to a next state (60_exceptions.md
R98): the only stop of the model is an access past the storage, and a checked operand names a block of the grid. -/

namespace Sys2Proof.Machine

variable {s : State} {go : Result}

/-! ### The shared operations answer when what they gate does -/

theorem needGrid_answers (h : s.configured = true → ∃ t, go = .next t) : ∃ t, needGrid s go = .next t := by
  cases hc : s.configured with
  | false => exact ⟨_, needGrid_of_not_configured hc go⟩
  | true => simpa [hc] using h hc

theorem check_answers {ok : Bool} {e : Rejection} (h : ok = true → ∃ t, go = .next t) :
    ∃ t, check ok e s go = .next t := by
  cases ok with
  | false => exact ⟨_, rfl⟩
  | true => exact h rfl

theorem complete_answers (r : BitVec 64) (s : State) : ∃ t, complete r s = .next t := ⟨_, rfl⟩

/-- An access inside the storage that then completes. -/
theorem accessBlocks_complete_answers {n : Nat} (h : n ≤ s.nblkMax.toNat) (r : BitVec 64) (u : State) :
    ∃ t, accessBlocks n s (complete r u) = .next t := ⟨_, accessBlocks_of_le h _⟩

theorem Result.map_answers {o : Result} (f : State → State) (h : ∃ t, o = .next t) :
    ∃ t, Result.map f o = .next t := by
  obtain ⟨t, rfl⟩ := h
  exact ⟨f t, rfl⟩

/-! ### Commands -/

theorem exec_answers (hinv : s.Inv) (i : Instr) : ∃ t, exec i s = .next t := by
  cases i with
  | config w h =>
    exact check_answers fun _ => check_answers fun _ => check_answers fun _ => complete_answers ..
  | inrange x y => exact needGrid_answers fun _ => complete_answers ..
  | getbw => exact needGrid_answers fun _ => complete_answers ..
  | getbh => exact needGrid_answers fun _ => complete_answers ..
  | setcolor x y color =>
    exact needGrid_answers fun grid => check_answers fun range =>
      accessBlocks_complete_answers (hinv.pixelBlock_le grid range) ..
  | getcolor x y =>
    exact needGrid_answers fun grid => check_answers fun range =>
      accessBlocks_complete_answers (hinv.pixelBlock_le grid range) ..
  | getplane bx byy d =>
    exact needGrid_answers fun grid => check_answers fun range => check_answers fun _ =>
      accessBlocks_complete_answers (hinv.operandBlock_le grid range) ..
  | setplane bx byy d plane =>
    exact needGrid_answers fun grid => check_answers fun range => check_answers fun _ =>
      accessBlocks_complete_answers (hinv.operandBlock_le grid range) ..
  | tocgc => exact needGrid_answers fun grid => accessBlocks_complete_answers (hinv.nblk_le grid) ..
  | topbc => exact needGrid_answers fun grid => accessBlocks_complete_answers (hinv.nblk_le grid) ..
  | rdstat => exact complete_answers ..
  | clrerr => exact complete_answers ..
  | getcap => exact complete_answers ..

theorem perform_of_decode {c : Command} {i : Instr} (h : decode c = .ok i) (s : State) :
    perform c s = exec i s := by simp only [perform, h]

theorem perform_of_decode_error {c : Command} {e : DecodeError} (h : decode c = .error e) (s : State) :
    perform c s = reject .illegal s := by simp only [perform, h]

theorem perform_answers (hinv : s.Inv) (c : Command) : ∃ t, perform c s = .next t := by
  cases hd : decode c with
  | ok i => rw [perform_of_decode hd]; exact exec_answers hinv i
  | error e => exact ⟨_, perform_of_decode_error hd s⟩

/-! ### Steps -/

theorem step_of_no_input (h : s.inputs = []) : step s = .next s.deliver := by simp only [step, advance, h]

/-- A command in progress is finished before the next input is met, unless that is a reset
(70_reset_and_hazards.md R117, R121). -/
theorem step_of_inProgress {r : Response} {input : HostInput} {rest : List HostInput} (hp : s.inProgress = some r)
    (hin : s.inputs = input :: rest) (hne : input ≠ .reset) : step s = .next s.deliver := by
  cases input with
  | reset => exact absurd rfl hne
  | command c => simp only [step, advance, hin, hp]
  | commandCutByReset c => simp only [step, advance, hin, hp]

theorem step_answers (hinv : s.Inv) : ∃ t, step s = .next t := by
  cases hin : s.inputs with
  | nil => exact ⟨_, step_of_no_input hin⟩
  | cons input rest =>
    have performs (c : Command) : ∃ t, perform c { s with inputs := rest } = .next t :=
      perform_answers (hinv.withInputs rest) c
    by_cases hreset : input = .reset
    · exact ⟨_, step_of_reset (hreset ▸ hin)⟩
    cases hp : s.inProgress with
    | some r => exact ⟨_, step_of_inProgress hp hin hreset⟩
    | none =>
      cases input with
      | reset => exact absurd rfl hreset
      | command c => rw [step_of_command hp hin]; exact Result.map_answers _ (performs c)
      | commandCutByReset c => rw [step_of_cut hp hin]; exact Result.map_answers _ (performs c)

end Sys2Proof.Machine
end

