-- ==== Sys2Proof/Proofs/OpenParameters.lean ====
section
/-! PROOF. The open parameters (00_scope.md R7): the capacity's range, and what a latency depends on. -/

namespace Sys2Proof

theorem Config.nblkMax_toNat : Config.nblkMax.toNat = Config.nblkMaxPred.val + 1 :=
  (BitVec.toNat_ofNat ..).trans (Nat.mod_eq_of_lt (by have := Config.nblkMaxPred.isLt; omega))

/-- The opcode map reads each command from its own opcode (30_encoding.md R54). -/
theorem Command.opcode_of_select {c : Command} {n : Nat} {i : Instr} (h : c.select n = .ok i) :
    i.opcode.toNat = n := by
  unfold Command.select at h
  split at h <;> cases h <;> rfl

theorem opcode_of_decode {c : Command} {i : Instr} (h : decode c = .ok i) : i.opcode = c.op := by
  unfold decode at h
  split at h
  · exact BitVec.eq_of_toNat_eq (Command.opcode_of_select h)
  · cases h

namespace Machine

theorem latency_of_decode {c : Command} {i : Instr} (h : decode c = .ok i) (blocks : Nat) :
    latency c blocks = Instr.latency i blocks := by simp only [latency, h]

/-- A command's latency is a function of its opcode, and of the block count only for CONFIG, TOCGC and TOPBC. -/
theorem latency_of_opcode (i : Instr) (blocks : Nat) :
    Instr.latency i blocks =
      if i.opcode = 0x01#8 ∨ i.opcode = 0x09#8 ∨ i.opcode = 0x0A#8 then Config.gridLatencyPred i.opcode blocks + 1
      else Config.latencyPred i.opcode + 1 := by
  cases i <;> rfl

theorem one_le_latency (c : Command) (blocks : Nat) : 1 ≤ latency c blocks := by
  cases hd : decode c with
  | ok i =>
    rw [latency_of_decode hd, latency_of_opcode]
    split <;> omega
  | error e => simp only [latency, hd]; omega

/-- Two legal commands of one opcode have one latency on the same block count. -/
theorem latency_congr {c c' : Command} {i i' : Instr} (hd : decode c = .ok i) (hd' : decode c' = .ok i')
    (hop : c.op = c'.op) (blocks : Nat) : latency c blocks = latency c' blocks := by
  have same : i.opcode = i'.opcode := by rw [opcode_of_decode hd, opcode_of_decode hd', hop]
  rw [latency_of_decode hd, latency_of_decode hd', latency_of_opcode, latency_of_opcode, same]

/-- Outside CONFIG, TOCGC and TOPBC a legal command's latency does not depend on the block count. -/
theorem latency_blocks_irrel {c : Command} {i : Instr} (hd : decode c = .ok i) (hconfig : c.op ≠ 0x01#8)
    (hcgc : c.op ≠ 0x09#8) (hpbc : c.op ≠ 0x0A#8) (blocks blocks' : Nat) : latency c blocks = latency c blocks' := by
  have fixed : ¬ (i.opcode = 0x01#8 ∨ i.opcode = 0x09#8 ∨ i.opcode = 0x0A#8) := by
    simp [opcode_of_decode hd, hconfig, hcgc, hpbc]
  rw [latency_of_decode hd, latency_of_decode hd, latency_of_opcode, latency_of_opcode, if_neg fixed, if_neg fixed]

end Machine
end Sys2Proof
end

