-- ==== Sys2Proof/Proofs/Scope.lean ====
section
/-! PROOF. The statements of 00_scope.md. -/

namespace Sys2Proof.Machine

/-- Settles O17, by cases on what the host does next: under the invariant no checked access leaves the storage. -/
theorem stepNeverStops : Obligations.StepNeverStops := fun _ hinv => step_answers hinv

/-- Settles O4: an accepted command is performed and its response delivered, and performing it runs `exec`. -/
theorem stepRunsTheDecodedCommand : Obligations.StepRunsTheDecodedCommand := by
  intro s c rest i hidle hin hd
  rw [step_of_command hidle hin, perform_of_decode hd]
  cases exec i { s with inputs := rest } <;> rfl

/-- Settles O55: the latency of a legal command is a function of its opcode and, for the three commands over the whole
grid, of the block count. -/
theorem openParametersMeetTheirConstraints : Obligations.OpenParametersMeetTheirConstraints := by
  refine ⟨?_, one_le_latency, fun c c' i i' blocks blocks' hd hd' hop =>
    ⟨latency_congr hd hd' hop blocks, fun hconfig hcgc hpbc => ?_⟩⟩
  · have capacity : State.reset.nblkMax.toNat = Config.nblkMaxPred.val + 1 := Config.nblkMax_toNat
    have bound := Config.nblkMaxPred.isLt
    omega
  · calc latency c blocks = latency c blocks' := latency_blocks_irrel hd hconfig hcgc hpbc blocks blocks'
      _ = latency c' blocks' := latency_congr hd hd' hop blocks'

end Sys2Proof.Machine
end

