-- ==== Sys2Proof/Proofs/Effects.lean ====
section
/-! PROOF. What a command's one effect keeps: the grid (10_state.md R17, R18), `MODE` (R19) and the planes outside the
blocks in use (R25); that no command touches the capacity (R31); and the geometry CONFIG leaves. -/

namespace Sys2Proof.Machine

variable {s u : State} {i : Instr} {r : BitVec 64}

/-! ### The geometry CONFIG leaves -/

/-- A block count fits its 32-bit register. -/
theorem blocksAcross_lt (w : Word32) : blocksAcross (s32 w) < 2 ^ 32 := by
  have bound : s32 w < 2 ^ 31 := BitVec.toInt_lt
  unfold blocksAcross
  omega

/-- A requested dimension above 8 has a block (40_grid.md R64). -/
theorem one_le_blocksAcross {d : Int} (h : 8 < d) : 1 ≤ blocksAcross d := by
  unfold blocksAcross
  omega

/-- CONFIG's registers hold its block counts exactly. -/
theorem State.construct_bw_bh (w h : Word32) (s : State) :
    (s.construct (blocksAcross (s32 w)) (blocksAcross (s32 h))).bw = blocksAcross (s32 w) ∧
      (s.construct (blocksAcross (s32 w)) (blocksAcross (s32 h))).bh = blocksAcross (s32 h) :=
  ⟨Nat.mod_eq_of_lt (blocksAcross_lt w), Nat.mod_eq_of_lt (blocksAcross_lt h)⟩

theorem State.construct_nblk (w h : Word32) (s : State) :
    (s.construct (blocksAcross (s32 w)) (blocksAcross (s32 h))).nblk = blocksAcross (s32 w) * blocksAcross (s32 h) := by
  obtain ⟨hbw, hbh⟩ := s.construct_bw_bh w h
  rw [State.nblk, hbw, hbh]

/-! ### The grid -/

/-- An effect keeps a configured grid: CONFIG, the one command that sets the geometry, has none on it. -/
theorem Effect.keeps_grid (h : Effect s i r u) (grid : s.configured = true) :
    u.configured = true ∧ u.cfgBw = s.cfgBw ∧ u.cfgBh = s.cfgBh := by
  cases h with
  | config free => exact absurd grid (by simp [free])
  | _ => exact ⟨grid, rfl, rfl⟩

/-! ### The mode -/

theorem Effect.mode_of_tocgc (h : Effect s .tocgc r u) : u.mode = .cgc := by cases h; rfl

theorem Effect.mode_of_topbc (h : Effect s .topbc r u) : u.mode = .pbc := by cases h; rfl

theorem Effect.mode_of_config {w hh : Word32} (h : Effect s (.config w hh) r u) : u.mode = .pbc := by cases h; rfl

/-- No other command writes `MODE`. -/
theorem Effect.keeps_mode (h : Effect s i r u) (hcgc : i ≠ .tocgc) (hpbc : i ≠ .topbc)
    (hconfig : ∀ w hh, i ≠ .config w hh) : u.mode = s.mode := by
  cases h with
  | config => exact absurd rfl (hconfig _ _)
  | tocgc => exact absurd rfl hcgc
  | topbc => exact absurd rfl hpbc
  | _ => rfl

/-! ### The capacity -/

theorem perform_keeps_nblkMax {t : State} {c : Command} (h : perform c s = .next t) : t.nblkMax = s.nblkMax := by
  obtain ⟨-, -, capacity⟩ := perform_untouched h
  exact capacity

/-! ### The planes outside the grid -/

/-- An effect writes no word past the blocks in use as they stand after it. -/
theorem Effect.keeps_planes_outside (h : Effect s i r u) {a : Nat} (ha : 32 * u.nblk ≤ a) :
    u.planes.read a = s.planes.read a := by
  cases h with
  | @config w hh =>
    rw [State.construct_nblk] at ha
    rw [State.construct_planes, Memory.read_clearBelow, if_neg (Nat.not_lt.mpr ha)]
  | setcolor grid range =>
    have hend : 32 * s.nblk ≤ a := ha
    have hb := State.pixelBlock_lt range
    exact Memory.read_blkSet_outside _ _ _ _ (.inr (by omega))
  | setplane grid range depth =>
    have hend : 32 * s.nblk ≤ a := ha
    have hb := State.operandBlock_lt range
    rw [depthInRange_iff] at depth
    exact (Memory.read_setPlane ..).trans (if_neg (by unfold planeAddress; omega))
  | tocgc => exact Memory.read_eachBlock_cgc_above _ _ ha
  | topbc => exact Memory.read_eachBlock_pbc_above _ _ ha
  | _ => rfl

end Sys2Proof.Machine
end

