-- ==== Sys2Proof/Proofs/Invariant.lean ====
section
/-! PROOF. Each thing a step can do keeps the invariant. -/

namespace Sys2Proof.Machine

variable {s t : State}

/-- The code of a rejection is one of 1 to 7 (60_exceptions.md R101). -/
theorem Rejection.code_range (e : Rejection) : 1 ≤ e.code.toNat ∧ e.code.toNat ≤ 7 := by cases e <;> decide

theorem State.Inv.recordError (h : s.Inv) (e : Rejection) : (s.recordError e).Inv where
  canonical := h.canonical
  inStorage := h.inStorage
  capacityPos := h.capacityPos
  grid := h.grid
  noGrid := h.noGrid
  clearRecord := by simp
  setRecord _ := by
    cases herr : s.err with
    | false => simpa [herr] using e.code_range
    | true => simpa [herr] using h.setRecord herr

theorem State.Inv.clearError (h : s.Inv) : s.clearError.Inv where
  canonical := h.canonical
  inStorage := h.inStorage
  capacityPos := h.capacityPos
  grid := h.grid
  noGrid := h.noGrid
  clearRecord _ := rfl
  setRecord := by simp

theorem State.Inv.resetEdge (h : s.Inv) : s.resetEdge.Inv where
  canonical := h.canonical
  inStorage := h.inStorage
  capacityPos := h.capacityPos
  grid := by simp
  noGrid _ := ⟨rfl, rfl, rfl⟩
  clearRecord _ := rfl
  setRecord := by simp

/-- On a grid the mode is free, and the planes are so long as they stay canonical and inside the storage. -/
theorem State.Inv.withPlanes (h : s.Inv) (grid : s.configured = true) {m : Memory} (hwf : m.wf)
    (hbelow : m.Below (32 * s.nblkMax.toNat)) (mode : CodingMode) :
    State.Inv { s with planes := m, mode := mode } where
  canonical := hwf
  inStorage := hbelow
  capacityPos := h.capacityPos
  grid := h.grid
  noGrid hno := absurd hno (by simp [grid])
  clearRecord := h.clearRecord
  setRecord := h.setRecord

theorem State.Inv.construct (h : s.Inv) {width height : Word32} (dims : dimensionsOk width height = true)
    (fits : blocksAcross (s32 width) * blocksAcross (s32 height) ≤ s.nblkMax.toNat) :
    (s.construct (blocksAcross (s32 width)) (blocksAcross (s32 height))).Inv where
  canonical := Memory.wf_clearBelow h.canonical _
  inStorage := Memory.Below.clearBelow h.inStorage _
  capacityPos := h.capacityPos
  grid _ := by
    obtain ⟨hw, hh⟩ := dimensionsOk_iff.mp dims
    obtain ⟨hbw, hbh⟩ := s.construct_bw_bh width height
    rw [hbw, hbh]
    exact ⟨one_le_blocksAcross hw, one_le_blocksAcross hh, fits⟩
  noGrid := by simp
  clearRecord := h.clearRecord
  setRecord := h.setRecord

/-- Every command's effect keeps the invariant. -/
theorem Effect.keeps_inv {u : State} {i : Instr} {r : BitVec 64} (he : Effect s i r u) (h : s.Inv) : u.Inv := by
  have below : s.planes.Below (32 * s.nblkMax.toNat) := h.inStorage
  cases he with
  | config _ dims fits => exact h.construct dims fits
  | setcolor grid _ exist =>
    exact h.withPlanes grid (Memory.wf_blkSet h.canonical ..) (below.blkSet exist _ _) s.mode
  | setplane grid _ depth exist =>
    rw [depthInRange_iff] at depth
    exact h.withPlanes grid (Memory.wf_setPlane h.canonical ..) (below.setPlane exist (by omega) _) s.mode
  | tocgc grid exist =>
    exact h.withPlanes grid (Memory.wf_eachBlock_cgc h.canonical _)
      (Memory.Below.eachBlock (fun _ _ hb hm => hm.cgcBlock hb) below exist) .cgc
  | topbc grid exist =>
    exact h.withPlanes grid (Memory.wf_eachBlock_pbc h.canonical _)
      (Memory.Below.eachBlock (fun _ _ hb hm => hm.pbcBlock hb) below exist) .pbc
  | clrerr => exact h.clearError
  | inrange | getbw | getbh | getcolor | getplane | rdstat | getcap => exact h

theorem perform_keeps_inv {c : Command} (hp : perform c s = .next t) (h : s.Inv) : t.Inv := by
  rcases perform_cases hp with ⟨e, rfl⟩ | ⟨i, r, u, -, hu, rfl⟩
  · exact (h.recordError e).withResponse _ _
  · exact (hu.keeps_inv h).withResponse _ _

theorem step_keeps_inv (hs : step s = .next t) (h : s.Inv) : t.Inv := by
  rcases step_cases hs with rfl | ⟨rest, -, rfl⟩ | ⟨c, rest, u, -, -, hu, rfl⟩ | ⟨c, rest, u, -, -, hu, rfl⟩
  · exact h.deliver
  · exact (h.withInputs rest).resetEdge
  · exact (perform_keeps_inv hu (h.withInputs rest)).deliver
  · exact (perform_keeps_inv hu (h.withInputs rest)).resetEdge

theorem State.reset_inv : State.reset.Inv where
  canonical := Memory.wf_nil
  inStorage _ hcell := absurd hcell List.not_mem_nil
  capacityPos := by
    have capacity : State.reset.nblkMax.toNat = Config.nblkMaxPred.val + 1 := Config.nblkMax_toNat
    omega
  grid hgrid := absurd hgrid Bool.false_ne_true
  noGrid _ := ⟨rfl, rfl, rfl⟩
  clearRecord _ := rfl
  setRecord herr := absurd herr Bool.false_ne_true

end Sys2Proof.Machine
end

