-- ==== Sys2Proof/Proofs/Rejections.lean ====
section
/-! PROOF. A command is rejected exactly when a check of 60_exceptions.md R103 fails, so with the code of the first that
does; and these checks read the geometry, `CONFIGURED` and the capacity, and nothing else. -/

namespace Sys2Proof.Machine

variable {s s' t : State} {i : Instr} {e : Rejection} {o go : Result} {k : Check} {more : List Check}

theorem reject_inj {e' : Rejection} : reject e' s = reject e s ↔ e' = e := by
  refine ⟨fun h => ?_, fun h => h ▸ rfl⟩
  have hs := Host.Outcome.next.inj h
  simpa using congrArg State.inProgress hs

/-- These checks decide which rejection, if any, an outcome in a state is. -/
def DecidedBy (s : State) (checks : List Check) (o : Result) : Prop :=
  ∀ e, o = reject e s ↔ firstFailing checks = .rejected e

theorem DecidedBy.complete (r : BitVec 64) (u : State) : DecidedBy s [] (complete r u) := by
  intro e
  refine ⟨fun h => ?_, fun h => by cases h⟩
  have hs := Host.Outcome.next.inj h
  simpa using congrArg State.inProgress hs

theorem DecidedBy.accessBlocks_complete (n : Nat) (r : BitVec 64) (u : State) :
    DecidedBy s [] (accessBlocks n s (Machine.complete r u)) := by
  by_cases hn : n ≤ s.nblkMax.toNat
  · rw [accessBlocks_of_le hn]; exact .complete r u
  · exact fun e => by simp [accessBlocks, hn, reject, firstFailing]

theorem DecidedBy.check {ok : Bool} (hfails : k.fails = !ok) (hgo : ok = true → DecidedBy s more go) :
    DecidedBy s (k :: more) (check ok k.code s go) := by
  intro e
  cases ok with
  | false => simpa [firstFailing, hfails] using reject_inj
  | true => simpa [firstFailing, hfails] using hgo rfl e

theorem DecidedBy.needGrid (hgo : DecidedBy s more go) : DecidedBy s (checkGrid s :: more) (needGrid s go) :=
  DecidedBy.check (k := checkGrid s) rfl fun _ => hgo

/-- A check that reports its condition's failure fails exactly when the model's test of the condition does. -/
theorem decide_not_eq_not {p : Prop} [Decidable p] {ok : Bool} (h : ok = true ↔ p) : decide (¬ p) = !ok := by
  simp [← h]

theorem checkPixel_fails (x y : Word32) (s : State) : (checkPixel x y s).fails = !s.inRange x y :=
  decide_not_eq_not State.inRange_iff

theorem checkBlock_fails (bx byy : Word32) (s : State) : (checkBlock bx byy s).fails = !s.blockInRange bx byy :=
  decide_not_eq_not State.blockInRange_iff

theorem checkDepth_fails (d : Word32) : (checkDepth d).fails = !depthInRange d :=
  decide_not_eq_not depthInRange_iff

/-- `E_DIM` of CONFIG. -/
theorem checkDim_fails (w h : Word32) : decide (w.toInt ≤ 8 ∨ h.toInt ≤ 8) = !dimensionsOk w h := by
  rw [← decide_not_eq_not dimensionsOk_iff]
  exact decide_eq_decide.mpr (by unfold s32; omega)

/-- `E_CAPACITY` of CONFIG: the product of the block counts, which is exact above dimension 8. -/
theorem checkCapacity_fails {w h : Word32} (dims : dimensionsOk w h = true) (cap : Nat) :
    decide ((cap : Int) < (w.toInt - 1) / 8 * ((h.toInt - 1) / 8)) =
      !decide (blocksAcross (s32 w) * blocksAcross (s32 h) ≤ cap) := by
  obtain ⟨hw, hh⟩ := dimensionsOk_iff.mp dims
  have across {d : Int} (hd : 8 < d) : (blocksAcross d : Int) = (d - 1) / 8 := Int.toNat_of_nonneg (by omega)
  have product : (w.toInt - 1) / 8 * ((h.toInt - 1) / 8) =
      (blocksAcross (s32 w) * blocksAcross (s32 h) : Nat) := by
    rw [Nat.cast_mul, across hw, across hh, s32, s32]
  rw [product, ← decide_not, decide_eq_decide, Int.ofNat_lt, Nat.not_le]

/-- A command's checks decide its rejection (60_exceptions.md R103). -/
theorem exec_decidedBy (i : Instr) (s : State) : DecidedBy s (checksOf i s) (exec i s) := by
  cases i with
  | config w h =>
    exact .check (k := ⟨.state, s.configured⟩) (by simp) fun _ =>
      .check (k := ⟨.dim, _⟩) (checkDim_fails w h) fun dims =>
        .check (k := ⟨.capacity, _⟩) (checkCapacity_fails dims _) fun _ => .complete _ _
  | inrange x y => exact .needGrid (.complete _ _)
  | getbw => exact .needGrid (.complete _ _)
  | getbh => exact .needGrid (.complete _ _)
  | setcolor x y color =>
    exact .needGrid (.check (k := checkPixel x y s) (checkPixel_fails ..) fun _ => .accessBlocks_complete _ _ _)
  | getcolor x y =>
    exact .needGrid (.check (k := checkPixel x y s) (checkPixel_fails ..) fun _ => .accessBlocks_complete _ _ _)
  | getplane bx byy d =>
    exact .needGrid (.check (k := checkBlock bx byy s) (checkBlock_fails ..) fun _ =>
      .check (k := checkDepth d) (checkDepth_fails d) fun _ => .accessBlocks_complete _ _ _)
  | setplane bx byy d plane =>
    exact .needGrid (.check (k := checkBlock bx byy s) (checkBlock_fails ..) fun _ =>
      .check (k := checkDepth d) (checkDepth_fails d) fun _ => .accessBlocks_complete _ _ _)
  | tocgc => exact .needGrid (.accessBlocks_complete _ _ _)
  | topbc => exact .needGrid (.accessBlocks_complete _ _ _)
  | rdstat => exact .complete _ _
  | clrerr => exact .complete _ _
  | getcap => exact .complete _ _

/-- The checks read the geometry, `CONFIGURED` and the capacity, and nothing else. -/
theorem checksOf_congr (i : Instr) (hc : s'.configured = s.configured) (hbw : s'.cfgBw = s.cfgBw)
    (hbh : s'.cfgBh = s.cfgBh) (hcap : s'.nblkMax = s.nblkMax) : checksOf i s' = checksOf i s := by
  cases i <;> simp only [checksOf, checkGrid, checkPixel, checkBlock, hc, hbw, hbh, hcap]

/-- A command rejected in one state is rejected alike in every state of the same grid and capacity. -/
theorem exec_reject_congr (h : exec i s = reject e s) (hc : s'.configured = s.configured)
    (hbw : s'.cfgBw = s.cfgBw) (hbh : s'.cfgBh = s.cfgBh) (hcap : s'.nblkMax = s.nblkMax) :
    exec i s' = reject e s' := by
  rw [exec_decidedBy i s' e, checksOf_congr i hc hbw hbh hcap]
  exact (exec_decidedBy i s e).mp h

/-- A command that answers is rejected, or has its effect and completes. -/
theorem exec_rejects_or_completes (h : exec i s = .next t) :
    (∃ e, exec i s = reject e s ∧ t = s.rejectedWith e) ∨ ∃ r u, Effect s i r u ∧ t = u.respond .ok r := by
  rcases exec_cases h with ⟨e, rfl⟩ | completes
  · exact .inl ⟨e, h, rfl⟩
  · exact .inr completes

/-! ### Modes -/

/-- An effect does not read `MODE`, but for RDSTAT's result. -/
theorem Effect.withMode {r : BitVec 64} {u : State} (h : Effect s i r u) (mode : CodingMode) (hne : i ≠ .rdstat) :
    ∃ mode', Effect { s with mode := mode } i r { u with mode := mode' } := by
  cases h with
  | config free dims fits => exact ⟨_, .config free dims fits⟩
  | inrange grid => exact ⟨_, .inrange grid⟩
  | getbw grid => exact ⟨_, .getbw grid⟩
  | getbh grid => exact ⟨_, .getbh grid⟩
  | setcolor grid range exist => exact ⟨_, .setcolor grid range exist⟩
  | getcolor grid range exist => exact ⟨_, .getcolor grid range exist⟩
  | getplane grid range depth exist => exact ⟨_, .getplane grid range depth exist⟩
  | setplane grid range depth exist => exact ⟨_, .setplane grid range depth exist⟩
  | tocgc grid exist => exact ⟨_, .tocgc grid exist⟩
  | topbc grid exist => exact ⟨_, .topbc grid exist⟩
  | rdstat => exact absurd rfl hne
  | clrerr => exact ⟨_, .clrerr⟩
  | getcap => exact ⟨_, .getcap⟩

theorem exec_withMode (h : exec i s = .next t) (mode : CodingMode) :
    ∃ t', exec i { s with mode := mode } = .next t' ∧ (i ≠ .rdstat → t' = { t with mode := t'.mode }) := by
  by_cases hne : i = .rdstat
  · subst hne
    exact ⟨_, rfl, absurd rfl⟩
  · rcases exec_rejects_or_completes h with ⟨e, hrej, rfl⟩ | ⟨r, u, hu, rfl⟩
    · exact ⟨_, exec_reject_congr hrej rfl rfl rfl rfl, fun _ => rfl⟩
    · obtain ⟨mode', hu'⟩ := hu.withMode mode hne
      exact ⟨_, exec_of_effect hu', fun _ => rfl⟩

end Sys2Proof.Machine
end

