-- ==== Sys2Proof/Proofs/HostView.lean ====
section
/-! PROOF. Two states the host cannot tell apart stay so (10_state.md R25, R26): a command reads planes of the blocks in
use only, and what it leaves in them depends on those planes alone. -/

namespace Sys2Proof.Machine

variable {s s' t : State} {c : Command}

/-! ### Storages that agree on the blocks below `n` -/

/-- The same planes in every block below `n`. -/
def Memory.SameBlocks (n : Nat) (m m' : Memory) : Prop := ∀ b d, b < n → d < 32 → m'.plane b d = m.plane b d

/-- The blocks below `n` are the words below `32*n` (20_memory.md R35). -/
theorem Memory.sameBlocks_iff_read {n : Nat} {m m' : Memory} :
    Memory.SameBlocks n m m' ↔ ∀ a, a < 32 * n → m'.read a = m.read a := by
  refine ⟨fun h a ha => ?_, fun h b d hb hd => h _ (by unfold planeAddress; omega)⟩
  have address : planeAddress (a / 32) (a % 32) = a := Nat.div_add_mod a 32
  rw [← address]
  exact h _ _ (by omega) (Nat.mod_lt _ (by decide))

/-- The running XOR up to `d` reads the planes up to `d` only. -/
theorem xorUpTo_congr {P P' : Nat → Plane} {d : Nat} (h : ∀ j, j ≤ d → P' j = P j) :
    xorUpTo P' d = xorUpTo P d := by
  induction d with
  | zero => exact h 0 le_rfl
  | succ d ih => rw [xorUpTo, xorUpTo, ih fun j hj => h j (Nat.le_succ_of_le hj), h (d + 1) le_rfl]

namespace Memory.SameBlocks

variable {n : Nat} {m m' : Memory}

theorem setPlane (h : SameBlocks n m m') (b : Nat) {d : Nat} (hd : d < 32) (v : Plane) :
    SameBlocks n (m.setPlane b d v) (m'.setPlane b d v) := by
  intro b' d' hb' hd'
  rw [plane_setPlane m' v hd hd', plane_setPlane m v hd hd', h b' d' hb' hd']

theorem blkSet (h : SameBlocks n m m') (b p : Nat) (color : Color) :
    SameBlocks n (m.blkSet b p color) (m'.blkSet b p color) := by
  intro b' d hb' hd
  rw [plane_blkSet m' b p color b' hd, plane_blkSet m b p color b' hd]
  split
  · next hb => rw [← hb, h b' d hb' hd]
  · exact h b' d hb' hd

theorem blkGet_eq (h : SameBlocks n m m') {b : Nat} (hb : b < n) (p : Nat) : m'.blkGet b p = m.blkGet b p :=
  blkGet_congr fun d hd => by rw [h b d hb hd]

theorem clearBelow (m m' : Memory) (n : Nat) : SameBlocks n (m.clearBelow (32 * n)) (m'.clearBelow (32 * n)) := by
  rw [sameBlocks_iff_read]
  intro a ha
  rw [read_clearBelow, read_clearBelow, if_pos ha, if_pos ha]

theorem tocgc (h : SameBlocks n m m') (k : Nat) :
    SameBlocks n (eachBlock cgcBlock k m) (eachBlock cgcBlock k m') := by
  intro b d hb hd
  rw [plane_eachBlock_cgc m' k b hd, plane_eachBlock_cgc m k b hd, h b d hb hd, h b (d - 1) hb (by omega)]

theorem topbc (h : SameBlocks n m m') (k : Nat) :
    SameBlocks n (eachBlock pbcBlock k m) (eachBlock pbcBlock k m') := by
  intro b d hb hd
  rw [plane_eachBlock_pbc m' k b hd, plane_eachBlock_pbc m k b hd, h b d hb hd,
    xorUpTo_congr fun j hj => h b j hb (by omega)]

end Memory.SameBlocks

/-! ### States the host cannot tell apart -/

/-- The planes a storage must share with a state's to look the same to the host. -/
def State.LooksLike (s : State) (m : Memory) : Prop := s.configured = true → Memory.SameBlocks s.nblk s.planes m

theorem State.sameToHost_iff :
    s.SameToHost t ↔ ∃ m, t = { s with planes := m } ∧ s.LooksLike m := by
  refine ⟨fun ⟨rest, used⟩ => ⟨t.planes, rest, fun grid => ?_⟩, ?_⟩
  · exact Memory.sameBlocks_iff_read.mpr (used grid)
  · rintro ⟨m, rfl, h⟩
    exact ⟨rfl, fun grid => Memory.sameBlocks_iff_read.mp (h grid)⟩

/-- A command has the same effect, with the same result, in a state that looks the same. -/
theorem Effect.withPlanes {i : Instr} {r : BitVec 64} {u : State} (h : Effect s i r u) {m : Memory}
    (hm : s.LooksLike m) : ∃ m', Effect { s with planes := m } i r { u with planes := m' } ∧ u.LooksLike m' := by
  cases h with
  | @config w hh free dims fits =>
    refine ⟨_, .config free dims fits, fun _ => ?_⟩
    rw [State.construct_nblk]
    exact .clearBelow _ _ _
  | inrange grid => exact ⟨m, .inrange grid, hm⟩
  | getbw grid => exact ⟨m, .getbw grid, hm⟩
  | getbh grid => exact ⟨m, .getbh grid, hm⟩
  | setcolor grid range exist => exact ⟨_, .setcolor grid range exist, fun _ => (hm grid).blkSet _ _ _⟩
  | getcolor grid range exist =>
    rw [← (hm grid).blkGet_eq (State.pixelBlock_lt range)]
    exact ⟨m, .getcolor grid range exist, hm⟩
  | getplane grid range depth exist =>
    have hd := depthInRange_iff.mp depth
    rw [State.plane, ← hm grid _ _ (State.operandBlock_lt range) (by omega)]
    exact ⟨m, .getplane grid range depth exist, hm⟩
  | setplane grid range depth exist =>
    have hd := depthInRange_iff.mp depth
    exact ⟨_, .setplane grid range depth exist, fun _ => (hm grid).setPlane _ (by omega) _⟩
  | tocgc grid exist => exact ⟨_, .tocgc grid exist, fun _ => (hm grid).tocgc _⟩
  | topbc grid exist => exact ⟨_, .topbc grid exist, fun _ => (hm grid).topbc _⟩
  | rdstat => exact ⟨m, .rdstat, hm⟩
  | clrerr => exact ⟨m, .clrerr, hm⟩
  | getcap => exact ⟨m, .getcap, hm⟩

theorem reject_sameToHost (h : s.SameToHost t) (e : Rejection) : (s.rejectedWith e).SameToHost (t.rejectedWith e) := by
  obtain ⟨m, rfl, hm⟩ := State.sameToHost_iff.mp h
  exact State.sameToHost_iff.mpr ⟨m, rfl, hm⟩

theorem exec_sameToHost {i : Instr} (h : s.SameToHost t) (hs : exec i s = .next s') :
    ∃ t', exec i t = .next t' ∧ s'.SameToHost t' := by
  obtain ⟨m, rfl, hm⟩ := State.sameToHost_iff.mp h
  rcases exec_rejects_or_completes hs with ⟨e, hrej, rfl⟩ | ⟨r, u, hu, rfl⟩
  · exact ⟨_, exec_reject_congr hrej rfl rfl rfl rfl, reject_sameToHost h e⟩
  · obtain ⟨m', hu', hm'⟩ := hu.withPlanes hm
    exact ⟨_, exec_of_effect hu', State.sameToHost_iff.mpr ⟨m', rfl, hm'⟩⟩

theorem perform_sameToHost (h : s.SameToHost t) (hs : perform c s = .next s') :
    ∃ t', perform c t = .next t' ∧ s'.SameToHost t' := by
  cases hd : decode c with
  | ok i =>
    rw [perform_of_decode hd] at hs ⊢
    exact exec_sameToHost h hs
  | error why =>
    rw [perform_of_decode_error hd] at hs ⊢
    cases hs
    exact ⟨_, rfl, reject_sameToHost h .illegal⟩

namespace State.SameToHost

theorem inputs_eq (h : s.SameToHost t) : t.inputs = s.inputs := by rw [h.rest]

theorem inProgress_eq (h : s.SameToHost t) : t.inProgress = s.inProgress := by rw [h.rest]

theorem responses_eq (h : s.SameToHost t) : t.responses = s.responses := by rw [h.rest]

theorem withInputs (h : s.SameToHost t) (inputs : List HostInput) :
    SameToHost { s with inputs := inputs } { t with inputs := inputs } := by
  obtain ⟨m, rfl, hm⟩ := sameToHost_iff.mp h
  exact sameToHost_iff.mpr ⟨m, rfl, hm⟩

theorem resetEdge (h : s.SameToHost t) : s.resetEdge.SameToHost t.resetEdge := by
  obtain ⟨m, rfl, -⟩ := sameToHost_iff.mp h
  exact sameToHost_iff.mpr ⟨m, rfl, fun grid => absurd grid Bool.false_ne_true⟩

theorem deliver (h : s.SameToHost t) : s.deliver.SameToHost t.deliver := by
  cases hp : s.inProgress with
  | none => rwa [deliver_of_none hp, deliver_of_none (h.inProgress_eq.trans hp)]
  | some r =>
    rw [deliver_of_some hp, deliver_of_some (h.inProgress_eq.trans hp)]
    obtain ⟨m, rfl, hm⟩ := sameToHost_iff.mp h
    exact sameToHost_iff.mpr ⟨m, rfl, hm⟩

/-- A performed command and what follows its response or a reset. -/
theorem map_perform (h : s.SameToHost t) {f : State → State}
    (hf : ∀ {u v : State}, u.SameToHost v → (f u).SameToHost (f v)) (hs : Result.map f (perform c s) = .next s') :
    ∃ t', Result.map f (perform c t) = .next t' ∧ s'.SameToHost t' := by
  obtain ⟨u, hu, rfl⟩ := Result.map_eq_next.mp hs
  obtain ⟨v, hv, huv⟩ := perform_sameToHost h hu
  exact ⟨f v, Result.map_eq_next.mpr ⟨v, hv, rfl⟩, hf huv⟩

end State.SameToHost

/-- The unwinding step: whatever the host does next, it does to both states alike. -/
theorem step_sameToHost (h : s.SameToHost t) (hs : step s = .next s') :
    ∃ t', step t = .next t' ∧ s'.SameToHost t' := by
  cases hin : s.inputs with
  | nil =>
    rw [step_of_no_input hin] at hs
    cases hs
    exact ⟨_, step_of_no_input (h.inputs_eq.trans hin), h.deliver⟩
  | cons input rest =>
    have hin' : t.inputs = input :: rest := h.inputs_eq.trans hin
    by_cases hreset : input = .reset
    · subst hreset
      rw [step_of_reset hin] at hs
      cases hs
      exact ⟨_, step_of_reset hin', (h.withInputs rest).resetEdge⟩
    cases hp : s.inProgress with
    | some r =>
      rw [step_of_inProgress hp hin hreset] at hs
      cases hs
      exact ⟨_, step_of_inProgress (h.inProgress_eq.trans hp) hin' hreset, h.deliver⟩
    | none =>
      have hp' : t.inProgress = none := h.inProgress_eq.trans hp
      cases input with
      | reset => exact absurd rfl hreset
      | command c =>
        rw [step_of_command hp hin] at hs
        rw [step_of_command hp' hin']
        exact (h.withInputs rest).map_perform State.SameToHost.deliver hs
      | commandCutByReset c =>
        rw [step_of_cut hp hin] at hs
        rw [step_of_cut hp' hin']
        exact (h.withInputs rest).map_perform State.SameToHost.resetEdge hs

end Sys2Proof.Machine
end

