-- ==== Sys2Proof/Proofs/StateRules.lean ====
section
/-! PROOF. The statements of 10_state.md. -/

namespace Sys2Proof.Machine

/-- Settles O16, by the five things a step can do: each keeps every clause of the invariant. -/
theorem stepKeepsTheInvariant : Obligations.StepKeepsTheInvariant := fun _ _ hinv hs => step_keeps_inv hs hinv

/-- Settles O20, by unwinding one step: rejections read no plane, and an effect reads and writes those in use only. -/
theorem unusedPlanesAreNotObservable : Obligations.UnusedPlanesAreNotObservable := by
  intro s s' t h hs
  obtain ⟨t', ht, h'⟩ := step_sameToHost h hs
  exact ⟨t', ht, h', h'.responses_eq⟩

/-- Settles O21: a rejection writes the error record only, and no effect but CONFIG's, which needs no grid to be there,
sets the geometry. -/
theorem configuredGridIsFixed : Obligations.ConfiguredGridIsFixed := by
  intro c s t grid hp
  rcases perform_cases hp with ⟨e, rfl⟩ | ⟨i, r, u, -, hu, rfl⟩
  · exact ⟨grid, rfl, rfl⟩
  · exact hu.keeps_grid grid

/-- Settles O22: neither a command, a response nor a reset touches the capacity. -/
theorem capacityNeverChanges : Obligations.CapacityNeverChanges := by
  intro s t hs
  rcases step_cases hs with rfl | ⟨rest, -, rfl⟩ | ⟨c, rest, u, -, -, hu, rfl⟩ | ⟨c, rest, u, -, -, hu, rfl⟩
  · exact s.deliver_nblkMax
  · rfl
  · exact u.deliver_nblkMax.trans (perform_keeps_nblkMax hu :)
  · exact (perform_keeps_nblkMax hu :)

/-- Settles O23: a command's operands name a block of the grid, and CONFIG zeroes the blocks of the grid it makes. -/
theorem blocksOutsideTheGridAreNotWritten : Obligations.BlocksOutsideTheGridAreNotWritten := by
  intro c s t hp a ha
  rcases perform_cases hp with ⟨e, rfl⟩ | ⟨i, r, u, -, hu, rfl⟩
  · rfl
  · exact hu.keeps_planes_outside ha

/-- Settles O24: a rejection keeps `MODE`, and so does every effect but those of the three commands. -/
theorem modeIsSetByTransformsAndConfig : Obligations.ModeIsSetByTransformsAndConfig := by
  intro i s t r ht hr
  rcases exec_cases ht with ⟨e, rfl⟩ | ⟨result, u, hu, rfl⟩
  · cases hr
    exact ⟨nofun, fun _ => rfl⟩
  · cases hr
    refine ⟨fun _ => ⟨?_, ?_, ?_⟩, ?_⟩
    · rintro rfl
      exact hu.mode_of_tocgc
    · rintro rfl
      exact hu.mode_of_topbc
    · rintro w h rfl
      exact hu.mode_of_config
    · rintro (hrejected | ⟨hcgc, hpbc, hconfig⟩)
      · exact absurd rfl hrejected
      · exact hu.keeps_mode hcgc hpbc hconfig

/-- Settles O25: no check reads `MODE`, and no effect but RDSTAT's does. -/
theorem modeGatesNothing : Obligations.ModeGatesNothing := fun _ _ _ mode h => exec_withMode h mode

/-- Settles O8: each value is the one `State.reset` writes. -/
theorem resetValues : Obligations.ResetValues := ⟨rfl, rfl, rfl, rfl, rfl, rfl, rfl⟩

/-- Settles O15: no plane, no grid and a clear record; the open capacity is one more than a natural number. -/
theorem resetMeetsTheInvariant : Obligations.ResetMeetsTheInvariant := State.reset_inv

end Sys2Proof.Machine
end

