-- ==== Sys2Proof/Proofs/Transactions.lean ====
section
/-! PROOF. Each command is a transaction of its own (20_memory.md R44, R45): what it does reads neither the response
nor the host's later inputs, so a step does to a waiting command what performing it alone does. -/

namespace Sys2Proof.Machine

variable {s t u : State} {i : Instr} {r : BitVec 64}

/-- An effect reads neither the response in progress nor the host's inputs. -/
theorem Effect.withPort (h : Effect s i r u) (response : Option Response) (inputs : List HostInput) :
    Effect { s with inProgress := response, inputs := inputs } i r
      { u with inProgress := response, inputs := inputs } := by
  cases h with
  | config free dims fits => exact .config free dims fits
  | inrange grid => exact .inrange grid
  | getbw grid => exact .getbw grid
  | getbh grid => exact .getbh grid
  | setcolor grid range exist => exact .setcolor grid range exist
  | getcolor grid range exist => exact .getcolor grid range exist
  | getplane grid range depth exist => exact .getplane grid range depth exist
  | setplane grid range depth exist => exact .setplane grid range depth exist
  | tocgc grid exist => exact .tocgc grid exist
  | topbc grid exist => exact .topbc grid exist
  | rdstat => exact .rdstat
  | clrerr => exact .clrerr
  | getcap => exact .getcap

theorem exec_withInputs (h : exec i s = .next t) (inputs : List HostInput) :
    exec i { s with inputs := inputs } = .next { t with inputs := inputs } := by
  rcases exec_rejects_or_completes h with ⟨e, hrej, rfl⟩ | ⟨r, u, hu, rfl⟩
  · exact exec_reject_congr hrej rfl rfl rfl rfl
  · exact exec_of_effect (hu.withPort s.inProgress inputs)

/-- Performing a command neither reads nor changes what the host presents after it. -/
theorem perform_withInputs {c : Command} (h : perform c s = .next t) (inputs : List HostInput) :
    perform c { s with inputs := inputs } = .next { t with inputs := inputs } := by
  cases hd : decode c with
  | ok i =>
    rw [perform_of_decode hd] at h ⊢
    exact exec_withInputs h inputs
  | error why =>
    rw [perform_of_decode_error hd] at h ⊢
    cases h
    rfl

theorem State.with_own_inputs {inputs : List HostInput} (h : s.inputs = inputs) :
    { s with inputs := inputs } = s := by rw [← h]

/-- The step that accepts a command delivers what performing it alone leaves, with the host's later inputs waiting. -/
theorem step_of_command_alone {c : Command} {rest : List HostInput} (hidle : s.inProgress = none)
    (hin : s.inputs = .command c :: rest) (hu : perform c { s with inputs := [] } = .next u) :
    step s = .next { u.deliver with inputs := rest } := by
  obtain ⟨r, hr⟩ := perform_responds hu
  have hrest : perform c { s with inputs := rest } = .next { u with inputs := rest } := perform_withInputs hu rest
  rw [step_of_command hidle hin, hrest, Result.map_next, State.deliver_of_some hr]
  exact congrArg Host.Outcome.next (State.deliver_of_some hr)

end Sys2Proof.Machine
end

