-- ==== Sys2Proof/Proofs/Repetition.lean ====
section
/-! PROOF. Repetition (20_memory.md R43): writing the same planes again is no change of the storage, and a command whose
effect changes nothing answers the same again. -/

namespace Sys2Proof.Machine

/-! ### Writing the same planes again -/

/-- In the canonical form equal planes are equal data. -/
theorem Memory.ext_plane {m m' : Memory} (h : m.wf) (h' : m'.wf)
    (hp : ∀ b d, d < 32 → m'.plane b d = m.plane b d) : m' = m := by
  have same (a : Nat) : Memory.SameBlocks (a + 1) m m' := fun b d _ hd => hp b d hd
  exact Memory.ext_read h' h fun a => Memory.sameBlocks_iff_read.mp (same a) a (by omega)

theorem Memory.setPlane_setPlane {m : Memory} (h : m.wf) (b d : Nat) (v : Plane) :
    (m.setPlane b d v).setPlane b d v = m.setPlane b d v := by
  refine Memory.ext_read (Memory.wf_setPlane (Memory.wf_setPlane h ..) ..) (Memory.wf_setPlane h ..) fun a => ?_
  rw [Memory.read_setPlane, Memory.read_setPlane]
  split <;> rfl

theorem withBit_withBit (v : Plane) {p : Nat} (hp : p < 64) (bit : Bool) :
    withBit (withBit v p bit) p bit = withBit v p bit := by
  apply BitVec.eq_of_getLsbD_eq
  intro i _
  rw [getLsbD_withBit _ hp, getLsbD_withBit _ hp]
  split <;> rfl

theorem Memory.blkSet_blkSet {m : Memory} (h : m.wf) (b : Nat) {p : Nat} (hp : p < 64) (color : Color) :
    (m.blkSet b p color).blkSet b p color = m.blkSet b p color := by
  have hwf : (m.blkSet b p color).wf := Memory.wf_blkSet h ..
  refine Memory.ext_plane hwf (Memory.wf_blkSet hwf ..) fun b' d hd => ?_
  rw [Memory.plane_blkSet _ b p color b' hd]
  split
  · next hb => rw [hb, Memory.plane_blkSet m b p color b hd, if_pos rfl, withBit_withBit _ hp]
  · rfl

variable {s t u : State} {i : Instr} {r : BitVec 64}

/-! ### Repeating a command -/

/-- A command that answers `OK` had its effect. -/
theorem exec_completed (h : exec i s = .next t) (hok : t.inProgress = some ⟨.ok, r⟩) :
    ∃ u, Effect s i r u ∧ t = u.respond .ok r := by
  rcases exec_cases h with ⟨e, rfl⟩ | ⟨r', u, hu, rfl⟩
  · cases hok
  · cases hok
    exact ⟨u, hu, rfl⟩

/-- A command whose effect in a state is that state again repeats its response there. -/
theorem exec_repeats (h : Effect u i r u) : exec i (u.respond .ok r) = .next (u.respond .ok r) := by
  have again : Effect (u.respond .ok r) i r (u.respond .ok r) := h.withPort (some ⟨.ok, r⟩) u.inputs
  exact (exec_of_effect again :)

/-- The seven reading commands (20_memory.md R43). -/
def IsReader (i : Instr) : Prop :=
  (∃ x y, i = .getcolor x y) ∨ (∃ bx byy d, i = .getplane bx byy d) ∨ (∃ x y, i = .inrange x y) ∨
    i = .getbw ∨ i = .getbh ∨ i = .getcap ∨ i = .rdstat

/-- The effect of a reading command is its result only. -/
theorem Effect.eq_of_isReader (h : Effect s i r u) (hi : IsReader i) : u = s := by
  cases h with
  | inrange | getbw | getbh | getcolor | getplane | rdstat | getcap => rfl
  | config | setcolor | setplane | tocgc | topbc | clrerr => simp [IsReader] at hi

/-- The commands that write the same again: a pixel, a plane, a clear record (20_memory.md R43). -/
def IsRewriter (i : Instr) : Prop :=
  (∃ x y color, i = .setcolor x y color) ∨ (∃ bx byy d plane, i = .setplane bx byy d plane) ∨ i = .clrerr

/-- The effect of such a command, had once, is nothing more the second time. -/
theorem Effect.again_of_isRewriter (h : Effect s i r u) (hinv : s.Inv) (hi : IsRewriter i) : Effect u i r u := by
  cases h with
  | @setcolor x y color grid range exist =>
    have again (m : Memory) : Effect { s with planes := m } (.setcolor x y color) 0
        { s with planes := m.blkSet (s.pixelBlock x y) (pixelPosition x y) color } := .setcolor grid range exist
    have same := Memory.blkSet_blkSet hinv.canonical (s.pixelBlock x y) (pixelPosition_lt x y) color
    simpa only [same] using again (s.planes.blkSet (s.pixelBlock x y) (pixelPosition x y) color)
  | @setplane bx byy d plane grid range depth exist =>
    have again (m : Memory) : Effect { s with planes := m } (.setplane bx byy d plane) 0
        { s with planes := m.setPlane (s.operandBlock bx byy) (s32 d).toNat plane } :=
      .setplane grid range depth exist
    have same := Memory.setPlane_setPlane hinv.canonical (s.operandBlock bx byy) (s32 d).toNat plane
    simpa only [same] using again (s.planes.setPlane (s.operandBlock bx byy) (s32 d).toNat plane)
  | clrerr => exact .clrerr
  | config | inrange | getbw | getbh | getcolor | getplane | tocgc | topbc | rdstat | getcap =>
    simp [IsRewriter] at hi

end Sys2Proof.Machine
end

