-- ==== Sys2Proof/Proofs/BlockIndependence.lean ====
section
/-! PROOF. One block's planes do not depend on another's (20_memory.md R48): the writes of SETCOLOR and SETPLANE stay in
the block they address, and a transform makes the planes of a block from that block's planes. -/

namespace Sys2Proof.Machine

variable {s s' t t' : State} {m m' : Memory} {b : Nat}

/-! ### Commands that write one block -/

theorem read_of_exec_setcolor_outside {x y : Word32} {color : Color} (h : exec (.setcolor x y color) s = .next t)
    {a : Nat} (ha : a < 32 * s.pixelBlock x y ∨ 32 * s.pixelBlock x y + 32 ≤ a) :
    t.planes.read a = s.planes.read a := by
  rcases exec_cases h with ⟨e, rfl⟩ | ⟨r, u, hu, rfl⟩
  · rfl
  · cases hu
    exact Memory.read_blkSet_outside _ _ _ _ ha

theorem read_of_exec_setplane_outside {bx byy d : Word32} {plane : Plane}
    (h : exec (.setplane bx byy d plane) s = .next t) {a : Nat}
    (ha : a < 32 * s.operandBlock bx byy ∨ 32 * s.operandBlock bx byy + 32 ≤ a) :
    t.planes.read a = s.planes.read a := by
  rcases exec_cases h with ⟨e, rfl⟩ | ⟨r, u, hu, rfl⟩
  · rfl
  · cases hu with
    | setplane grid range depth exist =>
      rw [depthInRange_iff] at depth
      exact (Memory.read_setPlane ..).trans (if_neg (by unfold planeAddress; omega))

/-! ### Transforms -/

/-- The same planes in one block. -/
def Memory.SameBlock (b : Nat) (m m' : Memory) : Prop := ∀ d, d < 32 → m'.plane b d = m.plane b d

theorem Memory.SameBlock.tocgc (h : SameBlock b m m') (n : Nat) :
    SameBlock b (eachBlock cgcBlock n m) (eachBlock cgcBlock n m') := by
  intro d hd
  rw [plane_eachBlock_cgc m' n b hd, plane_eachBlock_cgc m n b hd, h d hd, h (d - 1) (by omega)]

theorem Memory.SameBlock.topbc (h : SameBlock b m m') (n : Nat) :
    SameBlock b (eachBlock pbcBlock n m) (eachBlock pbcBlock n m') := by
  intro d hd
  rw [plane_eachBlock_pbc m' n b hd, plane_eachBlock_pbc m n b hd, h d hd, xorUpTo_congr fun j hj => h j (by omega)]

/-- The planes a transform of the grid leaves: transformed if there is a grid, and as they were if it is rejected. -/
theorem planes_of_gridTransform {mode : CodingMode}
    (h : needGrid s (accessBlocks s.nblk s (complete 0 { s with planes := m, mode := mode })) = .next t) :
    t.planes = if s.configured = true then m else s.planes := by
  cases hc : s.configured with
  | false =>
    rw [needGrid_of_not_configured hc] at h
    cases h
    rfl
  | true =>
    rw [needGrid_of_configured hc] at h
    obtain ⟨-, h⟩ := accessBlocks_eq_next h
    cases h
    rfl

theorem planes_of_exec_tocgc (h : exec .tocgc s = .next t) :
    t.planes = if s.configured = true then Memory.eachBlock Memory.cgcBlock s.nblk s.planes else s.planes :=
  planes_of_gridTransform h

theorem planes_of_exec_topbc (h : exec .topbc s = .next t) :
    t.planes = if s.configured = true then Memory.eachBlock Memory.pbcBlock s.nblk s.planes else s.planes :=
  planes_of_gridTransform h

/-- In two grids of one geometry a transform leaves a block the same planes if it had the same. -/
theorem exec_transform_sameBlock {i : Instr} (hi : i = .tocgc ∨ i = .topbc) (hc : s'.configured = s.configured)
    (hn : s'.nblk = s.nblk) (ht : exec i s = .next t) (ht' : exec i s' = .next t')
    (hb : Memory.SameBlock b s.planes s'.planes) : Memory.SameBlock b t.planes t'.planes := by
  rcases hi with rfl | rfl
  · rw [planes_of_exec_tocgc ht, planes_of_exec_tocgc ht', hc, hn]
    split
    · exact hb.tocgc _
    · exact hb
  · rw [planes_of_exec_topbc ht, planes_of_exec_topbc ht', hc, hn]
    split
    · exact hb.topbc _
    · exact hb

end Sys2Proof.Machine
end

