-- ==== Sys2Proof/Proofs/MemoryRules.lean ====
section
/-! PROOF. The statements of 20_memory.md. -/

namespace Sys2Proof.Machine

/-- Settles O19, by induction on the commands waiting: the first step performs the first of them as if it were alone,
and leaves a state of the same kind to the others. -/
theorem runAppliesCommandsInOrder : Obligations.RunAppliesCommandsInOrder := by
  intro cs
  induction cs with
  | nil =>
    rintro s - ⟨-, hin⟩
    exact congrArg Host.Outcome.next (State.with_own_inputs hin).symm
  | cons c cs ih =>
    rintro s hinv ⟨hidle, hin⟩
    obtain ⟨u, hu⟩ := perform_answers (hinv.withInputs []) c
    obtain ⟨hnoInput, -, -⟩ := perform_untouched hu
    have hstep : step s = .next { u.deliver with inputs := cs.map .command } := step_of_command_alone hidle hin hu
    have hrun : Host.Core.run Sys2Proof.core (cs.length + 1) s =
        Host.Core.run Sys2Proof.core cs.length { u.deliver with inputs := cs.map .command } := by
      rw [run_succ, hstep]
    have hdelivered : { u.deliver with inputs := [] } = u.deliver :=
      State.with_own_inputs (u.deliver_inputs.trans hnoInput)
    have happly : applyAll (c :: cs) { s with inputs := [] } = applyAll cs { u.deliver with inputs := [] } := by
      rw [applyAll, hu, hdelivered]
    have hothers := ih _ (step_keeps_inv hstep hinv) ⟨u.deliver_inProgress, rfl⟩
    exact (hrun.trans hothers).trans happly.symm

/-- Settles O26: the two writes stay in their block, and a cascade reads the planes of its own block only. -/
theorem blocksAreIndependent : Obligations.BlocksAreIndependent := by
  refine ⟨?_, ?_, ?_⟩
  · intro s t x y color _ h a ha
    exact read_of_exec_setcolor_outside h ha
  · intro s t bx byy d plane h a ha
    exact read_of_exec_setplane_outside h ha
  · intro i s s' t t' b hi hc hbw hbh ht ht' hb
    have hn : s'.nblk = s.nblk := by simp only [State.nblk, State.bw, State.bh, hbw, hbh]
    exact exec_transform_sameBlock hi hc hn ht ht' hb

/-- Settles O47: a reading command's effect is the state itself, so it repeats. -/
theorem readersChangeNothing : Obligations.ReadersChangeNothing := by
  intro i s t result hi h hok
  obtain ⟨u, hu, rfl⟩ := exec_completed h hok
  obtain rfl := hu.eq_of_isReader hi
  exact ⟨rfl, exec_repeats hu⟩

/-- Settles O48: what the command wrote is there already when it is repeated, and equal planes are equal data. -/
theorem writersAreIdempotent : Obligations.WritersAreIdempotent := by
  intro i s t result hi hinv h hok
  obtain ⟨u, hu, rfl⟩ := exec_completed h hok
  exact exec_repeats (hu.again_of_isRewriter hinv hi)

end Sys2Proof.Machine
end

