-- ==== Sys2Proof/Proofs/Decoding.lean ====
section
/-! PROOF. What the decoder answers (30_encoding.md R51, R52, R55): it reads a command exactly from that command's word,
and takes from the ports the operands the command uses. -/

namespace Sys2Proof

variable {c : Command} {i : Instr}

/-! ### The command word -/

theorem Command.reservedClear_iff : c.reservedClear = true ↔ c.cmd.extractLsb' 8 24 = 0 := beq_iff_eq

/-- The two fields are the whole word (R51). -/
theorem Command.cmd_eq_append : c.cmd = c.cmd.extractLsb' 8 24 ++ c.op :=
  BitVec.extractLsb'_eq_self.symm.trans
    (BitVec.extractLsb'_append_extractLsb'_eq_extractLsb' (start₁ := 0) (len₁ := 8) rfl).symm

/-- A word is a command's own when `RSVD` is 0 and `OP` is its opcode (R54). -/
theorem Command.cmd_eq_word_iff : c.cmd = i.word ↔ c.reservedClear = true ∧ c.op = i.opcode := by
  constructor
  · intro hword
    obtain ⟨hop, hclear⟩ := Laws.Encoded.encode_op i
    simp only [Command.op, Command.reservedClear, Laws.Encoded.encode_cmd, ← hword] at hop hclear
    exact ⟨hclear, hop⟩
  · rintro ⟨hclear, hop⟩
    rw [Command.cmd_eq_append, Command.reservedClear_iff.mp hclear, hop]
    exact (BitVec.setWidth_eq_append (by decide)).symm

/-! ### The opcode map -/

/-- The ports a command uses carry its operands (R52). -/
def Command.CarriesOperands (c : Command) (i : Instr) : Prop :=
  (1 ≤ Machine.portsUsed i → c.a = (encode i).a) ∧ (2 ≤ Machine.portsUsed i → c.b = (encode i).b) ∧
  (3 ≤ Machine.portsUsed i → c.c = (encode i).c) ∧ (4 ≤ Machine.portsUsed i → c.d = (encode i).d)

/-- A command's own row of the map gives it back exactly when its operands stand on the ports. -/
theorem Command.select_opcode_iff : c.select i.opcode.toNat = .ok i ↔ c.CarriesOperands i := by
  cases i <;> simp [Command.select, Instr.opcode, Command.CarriesOperands, Machine.portsUsed, encode]

/-- The opcodes 0x01 to 0x0D, as the list of R54. -/
theorem mem_opcodes_iff {op : Opcode} :
    op ∈ ([0x01, 0x02, 0x03, 0x04, 0x05, 0x06, 0x07, 0x08, 0x09, 0x0A, 0x0B, 0x0C, 0x0D] : List Opcode) ↔
      1 ≤ op.toNat ∧ op.toNat ≤ 13 := by
  simp only [List.mem_cons, List.not_mem_nil, or_false]
  bv_omega

/-- The map has the rows 0x01 to 0x0D. -/
theorem Command.select_succeeds_iff {n : Nat} : (∃ i, c.select n = .ok i) ↔ 1 ≤ n ∧ n ≤ 13 := by
  constructor
  · rintro ⟨i, hi⟩
    rw [← Command.opcode_of_select hi]
    cases i <;> simp [Instr.opcode]
  · rintro ⟨hlow, hhigh⟩
    interval_cases n <;> exact ⟨_, rfl⟩

theorem Command.select_ne_reservedBits (c : Command) (n : Nat) : c.select n ≠ .error .reservedBits := by
  unfold Command.select
  split <;> simp

/-! ### The decoder -/

/-- The decoder reads `i` exactly from the word of `i`, by the row of `i`. -/
theorem decode_eq_ok_iff : decode c = .ok i ↔ c.cmd = i.word ∧ c.select i.opcode.toNat = .ok i := by
  rw [Command.cmd_eq_word_iff]
  constructor
  · intro h
    have hop := opcode_of_decode h
    unfold decode at h
    split at h
    case isTrue hclear => exact ⟨⟨hclear, hop.symm⟩, hop ▸ h⟩
    case isFalse => cases h
  · rintro ⟨⟨hclear, hop⟩, hrow⟩
    rw [decode, if_pos hclear, hop, hrow]

/-- The decoder names the reserved bits exactly when one is set. -/
theorem decode_eq_reservedBits_iff : decode c = .error .reservedBits ↔ c.cmd.extractLsb' 8 24 ≠ 0 := by
  rw [Ne, ← Command.reservedClear_iff, decode]
  split
  case isTrue hclear => simp [hclear, Command.select_ne_reservedBits]
  case isFalse hset => simp [hset]

/-- The legal words of R51: no reserved bit set, and an opcode from 0x01 to 0x0D. -/
theorem Command.wellFormed_iff :
    c.wellFormed = true ↔ c.cmd.extractLsb' 8 24 = 0 ∧ 1 ≤ c.op.toNat ∧ c.op.toNat ≤ 13 := by
  simp [Command.wellFormed, Command.reservedClear, Command.opcodeAssigned, Command.op, BitVec.le_def]

/-- The decoder reads a command exactly from the legal words. -/
theorem decode_succeeds_iff : (∃ i, decode c = .ok i) ↔ c.wellFormed = true := by
  rw [Command.wellFormed_iff, ← Command.reservedClear_iff, ← Command.select_succeeds_iff (c := c), decode]
  split
  case isTrue hclear => simp [hclear]
  case isFalse hset => simp [hset]

theorem decode_fails_of_not_wellFormed (h : c.wellFormed ≠ true) : ∃ e, decode c = .error e := by
  cases hd : decode c with
  | ok i => exact absurd (decode_succeeds_iff.mp ⟨i, hd⟩) h
  | error e => exact ⟨e, rfl⟩

end Sys2Proof
end

