-- ==== Sys2Proof/Proofs/Literals.lean ====
section
/-! PROOF. The assembler's literals (30_encoding.md R59): the listing's hexadecimal digits are read back as the number
they print, and an operand takes exactly the integers of its range. -/

namespace Sys2Proof.Machine

/-! ### Hexadecimal digits -/

theorem hexDigit_hexChar : ∀ n < 16, hexDigit (hexChar n) = some n := by decide

/-- The digits read first are the value above which the others are read. -/
theorem digitsValue_append (digit : Char → Option Nat) (base : Nat) (front back : List Char) (acc : Nat) :
    digitsValue digit base (front ++ back) acc =
      (digitsValue digit base front acc).bind (digitsValue digit base back) := by
  induction front generalizing acc with
  | nil => rfl
  | cons ch front ih =>
    cases hd : digit ch <;> simp [digitsValue, hd, ih]

/-- The digits printed are those of the number modulo `16 ^ width`, read above any value. -/
theorem digitsValue_hexText (width n acc : Nat) :
    digitsValue hexDigit 16 (hexText width n) acc = some (acc * 16 ^ width + n % 16 ^ width) := by
  induction width generalizing n with
  | zero => simp [hexText, digitsValue, Nat.mod_one]
  | succ w ih =>
    have last : hexDigit (hexChar (n % 16)) = some (n % 16) := hexDigit_hexChar _ (Nat.mod_lt _ (by decide))
    have value : (acc * 16 ^ w + n / 16 % 16 ^ w) * 16 + n % 16 = acc * 16 ^ (w + 1) + n % 16 ^ (w + 1) := by
      rw [pow_succ', Nat.mod_mul]
      ring
    simp [hexText, digitsValue_append, ih, digitsValue, last, value]

theorem hexText_ne_nil {width : Nat} (h : 1 ≤ width) (n : Nat) : hexText width n ≠ [] := by
  cases width with
  | zero => omega
  | succ w => simp [hexText]

theorem parseLiteral_hex (text : List Char) :
    parseLiteral ('0' :: 'x' :: text) = (numeral hexDigit 16 text).map Int.ofNat := rfl

/-! ### Ranges -/

theorem fits32_iff {n : Int} : Literal.fits32 n = true ↔ -(2 ^ 31) ≤ n ∧ n < 2 ^ 32 := by simp [Literal.fits32]

theorem fits64_iff {n : Int} : Literal.fits64 n = true ↔ 0 ≤ n ∧ n < 2 ^ 64 := by simp [Literal.fits64]

theorem operand32_of_literal {text : List Char} {n : Int} (h : parseLiteral text = some n) :
    operand32 text = if Literal.fits32 n then .ok (BitVec.ofInt 32 n) else .error .literalRange := by
  simp only [operand32, h]

theorem operand64_of_literal {text : List Char} {n : Int} (h : parseLiteral text = some n) :
    operand64 text = if Literal.fits64 n then .ok (BitVec.ofInt 64 n) else .error .literalRange := by
  simp only [operand64, h]

/-- A word made of an integer holds it modulo `2 ^ width`. -/
theorem toNat_ofInt_eq_emod (width : Nat) (n : Int) : ((BitVec.ofInt width n).toNat : Int) = n % 2 ^ width := by
  rw [BitVec.toNat_ofInt, Int.toNat_of_nonneg (Int.emod_nonneg n (by positivity))]
  norm_cast

end Sys2Proof.Machine
end

