-- ==== Sys2Proof/Proofs/EncodingRules.lean ====
section
/-! PROOF. The statements of 30_encoding.md. -/

namespace Sys2Proof.Machine

/-- Settles O3: the decoder reads `i` from the word of `i` by the row of `i`, and that row takes the ports `i` uses. -/
theorem decodeAndEncodeAgree : Obligations.DecodeAndEncodeAgree := by
  intro c i
  rw [decode_eq_ok_iff, Command.select_opcode_iff, Laws.Encoded.encode_cmd]
  rfl

/-- Settles O2: a word is legal when its two fields are, and the decoder looks at `RSVD` first. -/
theorem decodeSucceedsExactlyOnLegalWords : Obligations.DecodeSucceedsExactlyOnLegalWords := by
  refine fun c => ⟨?_, decode_eq_reservedBits_iff⟩
  rw [decode_succeeds_iff, Command.wellFormed_iff, mem_opcodes_iff]
  rfl

/-- Settles O6: a reserved word is not legal, so performing it is the rejection with `E_ILLEGAL`, which is delivered. -/
theorem reservedWordsAreRejected : Obligations.ReservedWordsAreRejected := by
  intro s c rest hidle hin hreserved
  have illegal : c.wellFormed ≠ true := by
    rw [Ne, Command.wellFormed_iff, Command.op]
    rintro ⟨hclear, hlow, hhigh⟩
    rcases hreserved with hset | hzero | hpast
    · exact hset hclear
    · simp [hzero] at hlow
    · bv_omega
  obtain ⟨e, he⟩ := decode_fails_of_not_wellFormed illegal
  rw [step_of_command hidle hin, perform_of_decode_error he, reject_eq, Result.map_next, State.deliver_of_some rfl,
    ← hidle]
  rfl

/-- Settles O53, by induction on the width: the last digit is read above the value of the others. -/
theorem hexLiteralsReadBack : Obligations.HexLiteralsReadBack := by
  intro width n hwidth hn
  rw [parseLiteral_hex, numeral, if_neg (hexText_ne_nil hwidth n), digitsValue_hexText, Nat.mod_eq_of_lt hn]
  simp

/-- Settles O1: each of the thirteen words is its command's own, and selects its row. -/
theorem opcodeMapDecodes : Obligations.OpcodeMapDecodes := by
  intro a b c d
  refine ⟨?_, ?_, ?_, ?_, ?_, ?_, ?_, ?_, ?_, ?_, ?_, ?_, ?_⟩ <;> exact decode_eq_ok_iff.mpr ⟨rfl, rfl⟩

/-- Settles O54: a literal in its operand's range is encoded modulo the width, and any other is an error. -/
theorem literalsAreRangeChecked : Obligations.LiteralsAreRangeChecked := by
  intro text n hn
  rw [operand32_of_literal hn, operand64_of_literal hn, ← fits32_iff, ← fits64_iff]
  refine ⟨fun h => ?_, fun h => if_neg h, fun h => ?_, fun h => if_neg h⟩
  · exact ⟨_, if_pos h, toNat_ofInt_eq_emod 32 n⟩
  · obtain ⟨hlow, hhigh⟩ := fits64_iff.mp h
    exact ⟨_, if_pos h, (toNat_ofInt_eq_emod 64 n).trans (Int.emod_eq_of_lt hlow hhigh)⟩

end Sys2Proof.Machine
end

