-- ==== Sys2Proof/Proofs/Geometry.lean ====
section
/-! PROOF. Grid construction (40_grid.md R62 to R65): the block counts of a requested dimension, the grid CONFIG leaves,
its zeroing word by word, and that a grid stays for every command after it. -/

namespace Sys2Proof.Machine

variable {s t u : State}

/-! ### Answers in the statements' words -/

/-- A command one of whose checks fails is rejected with the code of the first that does (60_exceptions.md R103). -/
theorem exec_of_firstFailing {i : Instr} {e : Rejection} (h : firstFailing (checksOf i s) = .rejected e) :
    exec i s = .next (s.rejectedWith e) := (exec_decidedBy i s e).mpr h

/-- A grid command with no grid is rejected with `E_STATE`. -/
theorem exec_of_no_grid {i : Instr} {more : List Check} (hchecks : checksOf i s = checkGrid s :: more)
    (hno : s.configured = false) : exec i s = .next (s.rejectedWith .state) :=
  exec_of_firstFailing (by simp [hchecks, firstFailing, checkGrid, hno])

/-- A command whose effect is its result only answers that and changes nothing. -/
theorem exec_of_effect_self {i : Instr} {r : BitVec 64} (h : Effect s i r s) : exec i s = .next (s.answered r) :=
  exec_of_effect h

/-! ### Block counts -/

/-- Above dimension 8 the block count is the exact quotient (40_grid.md R64). -/
theorem blocksAcross_eq {d : Int} (h : 8 < d) : (blocksAcross d : Int) = (d - 1) / 8 :=
  Int.toNat_of_nonneg (by omega)

/-- The capacity check on the exact product is the one on the block counts (40_grid.md R63). -/
theorem blocksAcross_mul_le_iff {w h : Int} (hw : 8 < w) (hh : 8 < h) {cap : Nat} :
    blocksAcross w * blocksAcross h ≤ cap ↔ (w - 1) / 8 * ((h - 1) / 8) ≤ (cap : Int) := by
  rw [← blocksAcross_eq hw, ← blocksAcross_eq hh]
  norm_cast

/-- Eight times the block count is the largest multiple of 8 strictly below the dimension (40_grid.md R64). -/
theorem blocksAcross_truncates {d : Int} (h : 8 < d) :
    1 ≤ d - 8 * blocksAcross d ∧ d - 8 * blocksAcross d ≤ 8 ∧ (d - 8 * blocksAcross d = 8 ↔ d % 8 = 0) ∧
      ∀ k : Int, 8 * k < d → 8 * k ≤ 8 * blocksAcross d := by
  rw [blocksAcross_eq h]
  refine ⟨?_, ?_, ?_, ?_⟩ <;> omega

/-! ### The grid CONFIG leaves -/

/-- CONFIG's effect needs two dimensions above 8, and its geometry is their block counts. -/
theorem Effect.geometry_of_config {w h : Word32} {r : BitVec 64} (he : Effect s (.config w h) r u) :
    8 < s32 w ∧ 8 < s32 h ∧ u.bw = blocksAcross (s32 w) ∧ u.bh = blocksAcross (s32 h) := by
  cases he with
  | config free dims fits =>
    obtain ⟨hw, hh⟩ := dimensionsOk_iff.mp dims
    obtain ⟨hbw, hbh⟩ := s.construct_bw_bh w h
    exact ⟨hw, hh, hbw, hbh⟩

/-- CONFIG's effect zeroes every plane of the blocks in use after it. -/
theorem Effect.plane_of_config {w h : Word32} {r : BitVec 64} (he : Effect s (.config w h) r u) {b d : Nat}
    (hb : b < u.nblk) (hd : d < 32) : u.plane b d = 0 := by
  cases he with
  | config free dims fits =>
    rw [State.construct_nblk] at hb
    exact (Memory.read_clearBelow ..).trans (if_pos (by unfold planeAddress; omega))

/-! ### Zeroing word by word -/

@[simp] theorem Memory.clearBelow_zero (m : Memory) : m.clearBelow 0 = m := by simp [Memory.clearBelow]

/-- Zeroing one word more is one write of 0 more. -/
theorem Memory.clearBelow_succ (m : Memory) (n : Nat) : m.clearBelow (n + 1) = (m.clearBelow n).write n 0 := by
  rw [Memory.write, if_pos rfl, Memory.without, Memory.clearBelow, Memory.clearBelow, List.filter_filter]
  refine List.filter_congr fun cell _ => ?_
  rw [← Bool.decide_and, decide_eq_decide]
  omega

theorem Memory.clearBelow_eq_foldl (m : Memory) (n : Nat) :
    m.clearBelow n = (List.range n).foldl (fun m a => m.write a 0) m := by
  induction n with
  | zero => exact m.clearBelow_zero
  | succ n ih => rw [Memory.clearBelow_succ, ih, List.range_succ, List.foldl_append]; rfl

/-! ### The grid stays -/

/-- The step of a unit with commands waiting performs and delivers the first, and leaves the others waiting. -/
theorem step_of_waiting {c : Command} {cs : List Command} (hs : s.Waiting (c :: cs)) (ht : step s = .next t) :
    ∃ u, perform c { s with inputs := cs.map .command } = .next u ∧ t = u.deliver ∧ t.Waiting cs := by
  obtain ⟨hidle, hin⟩ := hs
  rw [step_of_command hidle hin, Result.map_eq_next] at ht
  obtain ⟨u, hu, rfl⟩ := ht
  obtain ⟨hrest, -, -⟩ := perform_untouched hu
  exact ⟨u, hu, rfl, u.deliver_inProgress, u.deliver_inputs.trans hrest⟩

/-- A run of commands with no reset keeps a configured grid (10_state.md R18). -/
theorem run_keeps_configured (cs : List Command) (grid : s.configured = true) (hs : s.Waiting cs)
    (hrun : Host.Core.run Sys2Proof.core cs.length s = .next t) : t.configured = true := by
  induction cs generalizing s with
  | nil =>
    cases hrun
    exact grid
  | cons c cs ih =>
    rw [List.length_cons, run_succ] at hrun
    cases hstep : step s with
    | next v =>
      rw [hstep] at hrun
      obtain ⟨u, hu, rfl, hwaiting⟩ := step_of_waiting hs hstep
      obtain ⟨hgrid, -, -⟩ := configuredGridIsFixed c { s with inputs := cs.map .command } u grid hu
      exact ih (u.deliver_configured.trans hgrid) hwaiting hrun
    | fault r => simp [hstep] at hrun
    | refused r => simp [hstep] at hrun

end Sys2Proof.Machine
end

