-- ==== Sys2Proof/Proofs/GridRules.lean ====
section
/-! PROOF. The statements of 40_grid.md. -/

namespace Sys2Proof.Machine

/-- Settles O27: the first check that fails rejects, and with none failing CONFIG has its effect. -/
theorem configConstructsTheGrid : Obligations.ConfigConstructsTheGrid := by
  intro w h s
  refine ⟨fun grid => ?_, fun free hdim => ?_, fun free hw hh hcap => ?_, fun free hw hh hcap => ?_⟩
  · exact exec_of_firstFailing (by simp [checksOf, firstFailing, grid])
  · have small : w.toInt ≤ 8 ∨ h.toInt ≤ 8 := by omega
    exact exec_of_firstFailing (by simp [checksOf, firstFailing, free, small])
  · have large : ¬ (w.toInt ≤ 8 ∨ h.toInt ≤ 8) := by omega
    have exceeds : (s.nblkMax.toNat : Int) < (w.toInt - 1) / 8 * ((h.toInt - 1) / 8) := hcap
    exact exec_of_firstFailing (by simp [checksOf, firstFailing, free, large, exceeds])
  · have effect : Effect s (.config w h) 0 (s.construct (blocksAcross (s32 w)) (blocksAcross (s32 h))) :=
      .config free (dimensionsOk_iff.mpr ⟨hw, hh⟩) ((blocksAcross_mul_le_iff hw hh).mpr hcap)
    obtain ⟨-, -, hbw, hbh⟩ := effect.geometry_of_config
    refine ⟨_, exec_of_effect effect, ?_, ?_, ?_, ?_, rfl⟩
    · exact (congrArg Nat.cast hbw).trans (blocksAcross_eq hw)
    · exact (congrArg Nat.cast hbh).trans (blocksAcross_eq hh)
    · exact fun b d hb hd => effect.plane_of_config hb hd
    · exact fun a ha => effect.keeps_planes_outside ha

/-- Settles O28: a CONFIG that completes leaves the block counts of its dimensions, which are above 8. -/
theorem effectiveDimensionsAreTruncated : Obligations.EffectiveDimensionsAreTruncated := by
  intro w h s t ht hok requested blocks hcase
  obtain ⟨u, hu, rfl⟩ := exec_completed ht hok
  obtain ⟨hw, hh, hbw, hbh⟩ := hu.geometry_of_config
  have count : 8 < requested ∧ blocks = blocksAcross requested := by
    rcases hcase with ⟨rfl, rfl⟩ | ⟨rfl, rfl⟩
    · exact ⟨hw, hbw⟩
    · exact ⟨hh, hbh⟩
  obtain ⟨large, rfl⟩ := count
  exact ⟨blocksAcross_eq large, one_le_blocksAcross large, blocksAcross_truncates large⟩

/-- Settles O31, by induction on the commands of the run: none of them removes the grid, and on a grid CONFIG's first
check fails. -/
theorem configSucceedsAtMostOnce : Obligations.ConfigSucceedsAtMostOnce := by
  intro cs w h s t grid hs hrun
  have hgrid : t.configured = true := run_keeps_configured cs grid hs hrun
  obtain ⟨hstate, -⟩ := configConstructsTheGrid w h t
  exact hstate hgrid

/-- Settles O49, by induction on the bound: each word more that is dropped is one write of 0 more. -/
theorem zeroingIsTheLoopOfWrites : Obligations.ZeroingIsTheLoopOfWrites := fun m n _ => m.clearBelow_eq_foldl n

/-- Settles O29: INRANGE has no check but the grid, and its test reads both coordinates as two's complement. -/
theorem inrangeTestsTheCoordinate : Obligations.InrangeTestsTheCoordinate := by
  intro x y s
  refine ⟨exec_of_no_grid rfl, fun grid => ?_⟩
  rw [exec_of_effect_self (.inrange grid), if_congr State.inRange_iff rfl rfl]
  rfl

/-- Settles O30: each read is its register, and the invariant keeps the geometry of a grid at least 1 each way. -/
theorem geometryQueriesRead : Obligations.GeometryQueriesRead := by
  intro s
  refine ⟨exec_of_no_grid rfl, fun grid => exec_of_effect_self (.getbw grid), exec_of_no_grid rfl,
    fun grid => exec_of_effect_self (.getbh grid), exec_of_effect_self .getcap, fun hinv grid => ?_⟩
  obtain ⟨hbw, hbh, -⟩ := hinv.grid grid
  have widened (v : Word32) : (v.zeroExtend 64).toNat = v.toNat :=
    BitVec.toNat_setWidth_of_le (by decide)
  rw [widened, widened]
  exact ⟨hbw, hbh⟩

end Sys2Proof.Machine
end

