-- ==== Sys2Proof/Proofs/PixelCodec.lean ====
section
/-! PROOF. A pixel's value (41_pixel_codec.md R73, R74): what each command leaves in it, and that GETCOLOR answers it in
every state that keeps the grid and the pixel. -/

namespace Sys2Proof.Machine

variable {s t u v : State} {i : Instr} {x y x' y' : Word32} {color : Color} {r : BitVec 64} {c : Command}

/-! ### Reading a pixel after a write of the storage -/

/-- `blkGet` after `blkSet`: the color written at its own place, and every other pixel as it was (R78, R79). -/
theorem Memory.blkGet_blkSet (m : Memory) (b' p' : Nat) {b p : Nat} (hp : p < 64) (color : Color) :
    (m.blkSet b p color).blkGet b' p' = if b' = b ∧ p' = p then color else m.blkGet b' p' := by
  split
  · next hsame =>
    obtain ⟨rfl, rfl⟩ := hsame
    apply BitVec.eq_of_getLsbD_eq
    intro d hd
    rw [Memory.getLsbD_blkGet _ _ _ hd, Memory.plane_blkSet _ _ _ _ _ hd, if_pos rfl, getLsbD_withBit _ hp, if_pos rfl]
  · next hother =>
    refine Memory.blkGet_congr fun d hd => ?_
    rw [Memory.plane_blkSet _ _ _ _ _ hd]
    split
    · next hb =>
      rw [getLsbD_withBit _ hp, if_neg fun hpos => hother ⟨hb, hpos⟩, hb]
    · rfl

/-- A plane write of another block leaves the pixel. -/
theorem Memory.blkGet_setPlane_other (m : Memory) {b b' d : Nat} (hb : b' ≠ b) (hd : d < 32) (plane : Plane)
    (p : Nat) : (m.setPlane b d plane).blkGet b' p = m.blkGet b' p :=
  Memory.blkGet_congr fun d' hd' => by rw [Memory.plane_setPlane _ _ hd hd', if_neg fun h => hb h.1]

/-! ### Where a pixel stands -/

/-- Two in-range pixels at the same position of the same block are the same pixel (20_memory.md R37). -/
theorem State.eq_of_samePlace (hr : s.inRange x y = true) (hr' : s.inRange x' y' = true)
    (hb : s.pixelBlock x' y' = s.pixelBlock x y) (hp : pixelPosition x' y' = pixelPosition x y) :
    x' = x ∧ y' = y := by
  rw [State.inRange_iff] at hr hr'
  obtain ⟨hbx, hby⟩ := (State.flatIndex_inj (by omega) (by omega)).mp hb
  unfold pixelPosition at hp
  have hx : s32 x' = s32 x := by omega
  have hy : s32 y' = s32 y := by omega
  exact ⟨BitVec.eq_of_toInt_eq hx, BitVec.eq_of_toInt_eq hy⟩

/-- A block operand names an in-range pixel's block only by the pixel's own block coordinates. -/
theorem State.coordinates_of_operandBlock_eq {bx byy : Word32} (hr : s.inRange x y = true)
    (hr' : s.blockInRange bx byy = true) (hb : s.operandBlock bx byy = s.pixelBlock x y) :
    s32 bx = s32 x / 8 ∧ s32 byy = s32 y / 8 := by
  rw [State.inRange_iff] at hr
  rw [State.blockInRange_iff] at hr'
  obtain ⟨hbx, hby⟩ := (State.flatIndex_inj (by omega) (by omega)).mp hb
  omega

theorem State.pixelBlock_congr (hbw : t.cfgBw = s.cfgBw) : t.pixelBlock x y = s.pixelBlock x y := by
  simp only [State.pixelBlock, State.flatIndex, State.bw, hbw]

theorem State.inRange_congr (hbw : t.cfgBw = s.cfgBw) (hbh : t.cfgBh = s.cfgBh) : t.inRange x y = s.inRange x y := by
  rw [Bool.eq_iff_iff, State.inRange_iff, State.inRange_iff]
  simp only [State.bw, State.bh, hbw, hbh]

/-! ### The value of a pixel -/

/-- The value of an in-range pixel, as GETCOLOR reads it (41_pixel_codec.md R77). -/
def State.pixel (s : State) (x y : Word32) : Color := s.planes.blkGet (s.pixelBlock x y) (pixelPosition x y)

/-- GETCOLOR's effect: the pixel's value, and no change. -/
theorem Effect.getcolor_iff :
    Effect s (.getcolor x y) r u ↔ s.configured = true ∧ s.inRange x y = true ∧
      s.pixelBlock x y + 1 ≤ s.nblkMax.toNat ∧ r = (s.pixel x y).zeroExtend 64 ∧ u = s := by
  refine ⟨fun h => ?_, ?_⟩
  · cases h with
    | getcolor grid range exist => exact ⟨grid, range, exist, rfl, rfl⟩
  · rintro ⟨grid, range, exist, rfl, rfl⟩
    exact .getcolor grid range exist

/-- GETCOLOR answers a value exactly when that is its effect. -/
theorem exec_getcolor_answered_iff :
    exec (.getcolor x y) s = .next (s.answered r) ↔ Effect s (.getcolor x y) r s := by
  refine ⟨fun h => ?_, exec_of_effect_self⟩
  obtain ⟨u, hu, -⟩ := exec_completed h rfl
  obtain ⟨-, -, -, -, rfl⟩ := Effect.getcolor_iff.mp hu
  exact hu

theorem State.pixel_congr (hplanes : t.planes = s.planes) (hbw : t.cfgBw = s.cfgBw) : t.pixel x y = s.pixel x y := by
  rw [State.pixel, State.pixel, hplanes, State.pixelBlock_congr hbw]

/-- GETCOLOR answers the same in every state of the same grid, capacity and pixel. -/
theorem Effect.getcolor_congr (h : Effect s (.getcolor x y) r s) (hc : t.configured = s.configured)
    (hbw : t.cfgBw = s.cfgBw) (hbh : t.cfgBh = s.cfgBh) (hcap : t.nblkMax = s.nblkMax)
    (hpixel : t.pixel x y = s.pixel x y) : Effect t (.getcolor x y) r t := by
  obtain ⟨grid, range, exist, hr, -⟩ := Effect.getcolor_iff.mp h
  refine Effect.getcolor_iff.mpr ⟨hc.trans grid, (State.inRange_congr hbw hbh).trans range, ?_, ?_, rfl⟩
  · rwa [State.pixelBlock_congr hbw, hcap]
  · rw [hpixel, hr]

/-! ### What the effects leave in a pixel -/

/-- SETCOLOR's effect writes its own pixel and leaves every other in the grid (R78, R79). -/
theorem Effect.pixel_of_setcolor (h : Effect s (.setcolor x y color) r u) (range' : s.inRange x' y' = true) :
    u.pixel x' y' = if x' = x ∧ y' = y then color else s.pixel x' y' := by
  cases h with
  | setcolor grid range exist =>
    refine (Memory.blkGet_blkSet _ _ _ (pixelPosition_lt x y) color).trans (if_congr ⟨?_, ?_⟩ rfl rfl)
    · rintro ⟨hb, hp⟩
      exact State.eq_of_samePlace range range' hb hp
    · rintro ⟨rfl, rfl⟩
      exact ⟨rfl, rfl⟩

/-- SETPLANE's effect leaves the pixels of every other block. -/
theorem Effect.pixel_of_setplane {bx byy d : Word32} {plane : Plane} (h : Effect s (.setplane bx byy d plane) r u)
    (range : s.inRange x y = true) (hother : ¬ (s32 bx = s32 x / 8 ∧ s32 byy = s32 y / 8)) :
    u.pixel x y = s.pixel x y := by
  cases h with
  | setplane grid range' depth exist =>
    have hb : s.pixelBlock x y ≠ s.operandBlock bx byy := fun hb =>
      hother (State.coordinates_of_operandBlock_eq range range' hb.symm)
    rw [depthInRange_iff] at depth
    exact Memory.blkGet_setPlane_other _ hb (by omega) _ _

/-- On a grid, the effect of a command that does not write a pixel leaves it (R78). -/
theorem Effect.keeps_pixel (h : Effect s i r u) (grid : s.configured = true) (range : s.inRange x y = true)
    (hd : decode c = .ok i) (hkeeps : ¬ writesPixel x y c) : u.pixel x y = s.pixel x y := by
  rw [writesPixel, hd] at hkeeps
  cases h with
  | config free => exact absurd grid (by simp [free])
  | @setcolor x' y' color grid range' exist =>
    have hset : Effect s (.setcolor x' y' color) 0 _ := .setcolor grid range' exist
    rw [hset.pixel_of_setcolor range, if_neg fun h => hkeeps ⟨h.1.symm, h.2.symm⟩]
  | setplane grid range' depth exist =>
    exact (Effect.setplane grid range' depth exist).pixel_of_setplane range hkeeps
  | tocgc | topbc => exact absurd trivial hkeeps
  | inrange | getbw | getbh | getcolor | getplane | rdstat | clrerr | getcap => rfl

/-! ### GETCOLOR after other commands -/

/-- After the effect of a command that leaves the pixel, GETCOLOR answers as before. -/
theorem Effect.keeps_getcolor {result : BitVec 64} (hget : Effect s (.getcolor x y) r s) (h : Effect s i result u)
    (hpixel : u.pixel x y = s.pixel x y) : Effect u (.getcolor x y) r u := by
  obtain ⟨grid, -⟩ := Effect.getcolor_iff.mp hget
  obtain ⟨hc, hbw, hbh⟩ := h.keeps_grid grid
  obtain ⟨-, -, hcap⟩ := h.untouched
  exact hget.getcolor_congr (hc.trans grid.symm) hbw hbh hcap hpixel

/-- GETCOLOR reads no response. -/
theorem Effect.getcolor_after_respond (hget : Effect s (.getcolor x y) r s) (st : Status) (result : BitVec 64) :
    Effect (s.respond st result) (.getcolor x y) r (s.respond st result) :=
  hget.getcolor_congr rfl rfl rfl rfl rfl

theorem Effect.getcolor_after_rejection (hget : Effect s (.getcolor x y) r s) (e : Rejection) :
    Effect (s.rejectedWith e) (.getcolor x y) r (s.rejectedWith e) :=
  hget.getcolor_congr rfl rfl rfl rfl rfl

theorem Effect.getcolor_after_deliver (hget : Effect s (.getcolor x y) r s) :
    Effect s.deliver (.getcolor x y) r s.deliver :=
  hget.getcolor_congr s.deliver_configured s.deliver_cfgBw s.deliver_cfgBh s.deliver_nblkMax
    (State.pixel_congr s.deliver_planes s.deliver_cfgBw)

/-- GETCOLOR answers the color that SETCOLOR's effect wrote. -/
theorem Effect.getcolor_after_setcolor (h : Effect s (.setcolor x y color) r u) :
    Effect u (.getcolor x y) (color.zeroExtend 64) u := by
  cases h with
  | setcolor grid range exist =>
    have hset : Effect s (.setcolor x y color) 0 _ := .setcolor grid range exist
    have hpixel := hset.pixel_of_setcolor range
    rw [if_pos ⟨rfl, rfl⟩] at hpixel
    exact Effect.getcolor_iff.mpr ⟨grid, range, exist, by rw [hpixel], rfl⟩

/-- A command that does not write the pixel leaves what GETCOLOR answers. -/
theorem perform_keeps_getcolor (hget : Effect s (.getcolor x y) r s) (hkeeps : ¬ writesPixel x y c)
    (ht : perform c s = .next t) : Effect t (.getcolor x y) r t := by
  rcases perform_cases ht with ⟨e, rfl⟩ | ⟨i, result, u, hd, hu, rfl⟩
  · exact hget.getcolor_after_rejection e
  · obtain ⟨grid, range, -⟩ := Effect.getcolor_iff.mp hget
    exact (hget.keeps_getcolor hu (hu.keeps_pixel grid range hd hkeeps)).getcolor_after_respond .ok result

theorem applyAll_cons_eq_next {cs : List Command} (h : applyAll (c :: cs) s = .next u) :
    ∃ t, perform c s = .next t ∧ applyAll cs t.deliver = .next u := by
  cases hp : perform c s with
  | next t => exact ⟨t, rfl, by simpa [applyAll, hp] using h⟩
  | fault r => simp [applyAll, hp] at h
  | refused r => simp [applyAll, hp] at h

theorem applyAll_keeps_getcolor {cs : List Command} (hget : Effect s (.getcolor x y) r s)
    (hkeeps : ∀ c ∈ cs, ¬ writesPixel x y c) (hu : applyAll cs s = .next u) : Effect u (.getcolor x y) r u := by
  induction cs generalizing s with
  | nil =>
    cases hu
    exact hget
  | cons c cs ih =>
    obtain ⟨t, ht, hrest⟩ := applyAll_cons_eq_next hu
    have hafter := perform_keeps_getcolor hget (hkeeps c List.mem_cons_self) ht
    exact ih hafter.getcolor_after_deliver (fun c' hc' => hkeeps c' (List.mem_cons_of_mem c hc')) hrest

/-! ### Rejections of the two pixel commands -/

/-- A command with the checks of a pixel command is rejected with `E_PIXEL` on a grid that has no such pixel. -/
theorem exec_of_pixel_out_of_range (hchecks : checksOf i s = [checkGrid s, checkPixel x y s])
    (grid : s.configured = true) (hout : ¬ s.inRange x y = true) : exec i s = .next (s.rejectedWith .pixel) := by
  have hgrid : (checkGrid s).fails = false := by simp [checkGrid, grid]
  have hpixel : (checkPixel x y s).fails = true := by simp [checkPixel_fails, hout]
  refine exec_of_firstFailing ?_
  rw [hchecks, firstFailing, hgrid, firstFailing, hpixel]
  rfl

/-- The two pixel commands have the same checks (60_exceptions.md R103). -/
theorem exec_setcolor_rejects_iff {e : Rejection} :
    exec (.setcolor x y color) s = reject e s ↔ exec (.getcolor x y) s = reject e s :=
  (exec_decidedBy (.setcolor x y color) s e).trans (exec_decidedBy (.getcolor x y) s e).symm

/-- A GETCOLOR that completes right after a SETCOLOR of the pixel reads the color: had SETCOLOR been rejected, GETCOLOR
would be, too. -/
theorem result_of_getcolor_after_setcolor (hu : exec (.setcolor x y color) t = .next u)
    (hv : exec (.getcolor x y) u = .next v) (hok : v.inProgress = some ⟨.ok, r⟩) : r = color.zeroExtend 64 := by
  rcases exec_rejects_or_completes hu with ⟨e, hrej, rfl⟩ | ⟨result, w, hw, rfl⟩
  · have hget : exec (.getcolor x y) (t.rejectedWith e) = reject e (t.rejectedWith e) :=
      exec_reject_congr (exec_setcolor_rejects_iff.mp hrej) rfl rfl rfl rfl
    cases hget.symm.trans hv
    cases hok
  · have hget := exec_of_effect (hw.getcolor_after_setcolor.getcolor_after_respond .ok result)
    cases hget.symm.trans hv
    cases hok
    rfl

/-! ### The bits of a value and of a result -/

/-- RESULT carries a pixel value in its low 32 bits, and 0 above (41_pixel_codec.md R77). -/
theorem getLsbD_zeroExtend_color (color : Color) (d : Nat) : (color.zeroExtend 64).getLsbD d = color.getLsbD d := by
  have below (hbit : color.getLsbD d = true) : d < 64 := (BitVec.lt_of_getLsbD hbit).trans (by decide)
  simpa using below

/-- The depths of a channel that is 0 are 0 (41_pixel_codec.md R71, R72). -/
theorem getLsbD_of_channel_eq_zero {k d : Nat} (h : channel color k = 0) (hlow : 8 * k ≤ d) (hhigh : d < 8 * k + 8) :
    color.getLsbD d = false := by
  have hbit : (channel color k).getLsbD (d - 8 * k) = false := by rw [h]; exact BitVec.getLsbD_zero
  rw [channel, BitVec.getLsbD_extractLsb', Nat.add_sub_cancel' hlow] at hbit
  simpa [show d - 8 * k < 8 by omega] using hbit

end Sys2Proof.Machine
end

