-- ==== Sys2Proof/Proofs/PixelRules.lean ====
section
/-! PROOF. The statements of 41_pixel_codec.md. -/

namespace Sys2Proof.Machine

/-- Settles O32: the two checks in order, and then the block write of R73 at the pixel's place. -/
theorem setcolorWritesThePixel : Obligations.SetcolorWritesThePixel := by
  intro x y color s
  refine ⟨exec_of_no_grid rfl, fun grid hout => ?_, ?_⟩
  · exact exec_of_pixel_out_of_range rfl grid (mt State.inRange_iff.mp hout)
  · rintro hinv grid hin b p rfl rfl
    have range : s.inRange x y = true := State.inRange_iff.mpr hin
    refine ⟨_, exec_of_effect (.setcolor grid range (hinv.pixelBlock_le grid range)), rfl, fun d q hd hq => ?_,
      fun a ha => Memory.read_blkSet_outside _ _ _ _ ha⟩
    have hplane := Memory.plane_blkSet s.planes (s.pixelBlock x y) (pixelPosition x y) color (s.pixelBlock x y) hd
    rw [if_pos rfl] at hplane
    exact (congrArg (BitVec.getLsbD · q) hplane).trans (getLsbD_withBit _ (pixelPosition_lt x y) _ q)

/-- Settles O33: the two checks in order, and then the block read of R74 at the pixel's place, in the low 32 bits. -/
theorem getcolorReadsThePixel : Obligations.GetcolorReadsThePixel := by
  intro x y s
  refine ⟨exec_of_no_grid rfl, fun grid hout => ?_, ?_⟩
  · exact exec_of_pixel_out_of_range rfl grid (mt State.inRange_iff.mp hout)
  · rintro hinv grid hin b p rfl rfl
    have range : s.inRange x y = true := State.inRange_iff.mpr hin
    refine ⟨_, exec_of_effect_self (.getcolor grid range (hinv.pixelBlock_le grid range)), fun d hd => ?_,
      fun d hd => ?_⟩
    · exact (getLsbD_zeroExtend_color _ d).trans (Memory.getLsbD_blkGet _ _ _ hd)
    · exact (getLsbD_zeroExtend_color _ d).trans (BitVec.getLsbD_of_ge _ d hd)

/-- Settles O34, by induction on the commands in between: SETCOLOR makes GETCOLOR answer the color, and a command that
does not write the pixel leaves that so. -/
theorem setThenGetReturnsTheColor : Obligations.SetThenGetReturnsTheColor := by
  intro x y color s t u cs _ ht hok hkeeps hu
  obtain ⟨written, hset, rfl⟩ := exec_completed ht hok
  have hget := hset.getcolor_after_setcolor.getcolor_after_respond .ok 0
  exact exec_getcolor_answered_iff.mpr (applyAll_keeps_getcolor hget hkeeps hu)

/-- Settles O35: another pixel has another place, which SETCOLOR does not write; and its own pixel reads the color, on a
fresh grid or not. -/
theorem setcolorKeepsOtherPixelsAndChannels : Obligations.SetcolorKeepsOtherPixelsAndChannels := by
  refine ⟨fun x y x' y' color s t before _ hne hbefore ht => ?_,
    fun w h x y color s t u v result _ _ hu hv hok hblue hgreen halpha => ?_⟩
  · have hget := exec_getcolor_answered_iff.mp hbefore
    obtain ⟨-, range', -⟩ := Effect.getcolor_iff.mp hget
    refine exec_getcolor_answered_iff.mpr ?_
    rcases exec_cases ht with ⟨e, rfl⟩ | ⟨r, u, hset, rfl⟩
    · exact hget.getcolor_after_rejection e
    · have hpixel := hset.pixel_of_setcolor range'
      rw [if_neg (by simpa using hne)] at hpixel
      exact (hget.keeps_getcolor hset hpixel).getcolor_after_respond .ok r
  · obtain rfl := result_of_getcolor_after_setcolor hu hv hok
    refine ⟨BitVec.eq_of_getLsbD_eq fun d hd => ?_, BitVec.eq_of_getLsbD_eq fun d hd => ?_⟩
    · have hzero : color.getLsbD d = false := by
        rcases Nat.lt_or_ge d 8 with hlow | hhigh
        · exact getLsbD_of_channel_eq_zero hblue (by omega) (by omega)
        · exact getLsbD_of_channel_eq_zero hgreen (by omega) (by omega)
      simp [hzero]
    · have hzero : color.getLsbD (24 + d) = false := getLsbD_of_channel_eq_zero halpha (by omega) (by omega)
      simp [hzero]

end Sys2Proof.Machine
end

