-- ==== Sys2Proof/Proofs/PlaneAccess.lean ====
section
/-! PROOF. What GETPLANE and SETPLANE do to one plane (42_bitplane.md R81, R82): where their checks stop them, that the
operands name the plane one-to-one, and what GETPLANE answers after a SETPLANE. -/

namespace Sys2Proof.Machine

variable {s u : State} {i : Instr} {bx byy d bx' byy' d' x y : Word32} {plane before : Plane} {r : BitVec 64}

/-! ### Rejections of the two plane commands -/

theorem firstFailing_of_passes {k : Check} (h : k.fails = false) (more : List Check) :
    firstFailing (k :: more) = firstFailing more := by simp [firstFailing, h]

theorem firstFailing_of_fails {k : Check} (h : k.fails = true) (more : List Check) :
    firstFailing (k :: more) = .rejected k.code := by simp [firstFailing, h]

theorem checkGrid_passes (grid : s.configured = true) : (checkGrid s).fails = false := by simp [checkGrid, grid]

/-- A command with the checks of a plane command is rejected with `E_BLOCK` on a grid that has no such block, whatever
the depth (60_exceptions.md R103). -/
theorem exec_of_block_out_of_range (hchecks : checksOf i s = [checkGrid s, checkBlock bx byy s, checkDepth d])
    (grid : s.configured = true) (hout : ¬ s.blockInRange bx byy = true) : exec i s = .next (s.rejectedWith .block) := by
  have hblock : (checkBlock bx byy s).fails = true := by simp [checkBlock_fails, hout]
  refine exec_of_firstFailing ?_
  rw [hchecks, firstFailing_of_passes (checkGrid_passes grid), firstFailing_of_fails hblock]
  rfl

/-- With the block in the grid, a depth out of range is rejected with `E_DEPTH`. -/
theorem exec_of_depth_out_of_range (hchecks : checksOf i s = [checkGrid s, checkBlock bx byy s, checkDepth d])
    (grid : s.configured = true) (range : s.blockInRange bx byy = true) (hout : ¬ depthInRange d = true) :
    exec i s = .next (s.rejectedWith .depth) := by
  have hblock : (checkBlock bx byy s).fails = false := by simp [checkBlock_fails, range]
  have hdepth : (checkDepth d).fails = true := by simp [checkDepth_fails, hout]
  refine exec_of_firstFailing ?_
  rw [hchecks, firstFailing_of_passes (checkGrid_passes grid), firstFailing_of_passes hblock,
    firstFailing_of_fails hdepth]
  rfl

/-! ### Which plane the operands name -/

/-- Distinct block operands name distinct blocks of the grid (20_memory.md R34, R39). -/
theorem State.operandBlock_inj (hr : s.blockInRange bx byy = true) (hr' : s.blockInRange bx' byy' = true) :
    s.operandBlock bx' byy' = s.operandBlock bx byy ↔ bx' = bx ∧ byy' = byy := by
  rw [State.blockInRange_iff] at hr hr'
  refine (State.flatIndex_inj (by omega) (by omega)).trans ⟨fun ⟨hx, hy⟩ => ?_, fun ⟨hx, hy⟩ => ⟨hx ▸ rfl, hy ▸ rfl⟩⟩
  have hsx : s32 bx' = s32 bx := by omega
  have hsy : s32 byy' = s32 byy := by omega
  exact ⟨BitVec.eq_of_toInt_eq hsx, BitVec.eq_of_toInt_eq hsy⟩

/-- Distinct depth operands in range name distinct depths (20_memory.md R39). -/
theorem depthInRange_inj (hd : depthInRange d = true) (hd' : depthInRange d' = true) :
    (s32 d').toNat = (s32 d).toNat ↔ d' = d := by
  rw [depthInRange_iff] at hd hd'
  refine ⟨fun h => ?_, fun h => h ▸ rfl⟩
  have hs : s32 d' = s32 d := by omega
  exact BitVec.eq_of_toInt_eq hs

/-- The block coordinates of an in-range pixel name the pixel's block (20_memory.md R37). -/
theorem State.operandBlock_eq_pixelBlock (hr : s.inRange x y = true) (hx : s32 bx = s32 x / 8)
    (hy : s32 byy = s32 y / 8) : s.operandBlock bx byy = s.pixelBlock x y := by
  rw [State.inRange_iff] at hr
  have hbx : (s32 bx).toNat = (s32 x).toNat / 8 := by omega
  have hby : (s32 byy).toNat = (s32 y).toNat / 8 := by omega
  rw [State.operandBlock, State.pixelBlock, hbx, hby]

/-! ### GETPLANE after SETPLANE -/

/-- GETPLANE's effect: the plane word, and no change. -/
theorem Effect.getplane_iff :
    Effect s (.getplane bx byy d) r u ↔ s.configured = true ∧ s.blockInRange bx byy = true ∧ depthInRange d = true ∧
      s.operandBlock bx byy + 1 ≤ s.nblkMax.toNat ∧ r = s.plane (s.operandBlock bx byy) (s32 d).toNat ∧ u = s := by
  refine ⟨fun h => ?_, ?_⟩
  · cases h with
    | getplane grid range depth exist => exact ⟨grid, range, depth, exist, rfl, rfl⟩
  · rintro ⟨grid, range, depth, exist, rfl, rfl⟩
    exact .getplane grid range depth exist

/-- GETPLANE answers a word exactly when that is its effect. -/
theorem exec_getplane_answered_iff :
    exec (.getplane bx byy d) s = .next (s.answered r) ↔ Effect s (.getplane bx byy d) r s := by
  refine ⟨fun h => ?_, exec_of_effect_self⟩
  obtain ⟨u, hu, -⟩ := exec_completed h rfl
  obtain ⟨-, -, -, -, -, rfl⟩ := Effect.getplane_iff.mp hu
  exact hu

/-- Where SETPLANE has its effect GETPLANE has one, too: their checks are the same. -/
theorem Effect.getplane_of_setplane (h : Effect s (.setplane bx byy d plane) r u) :
    Effect s (.getplane bx byy d) (s.plane (s.operandBlock bx byy) (s32 d).toNat) s := by
  cases h with
  | setplane grid range depth exist => exact .getplane grid range depth exist

/-- After SETPLANE's effect GETPLANE answers the word stored for that plane, and as before for every other (R84). -/
theorem Effect.getplane_after_setplane (hset : Effect s (.setplane bx byy d plane) r u)
    (hget : Effect s (.getplane bx' byy' d') before s) :
    Effect u (.getplane bx' byy' d') (if (bx', byy', d') = (bx, byy, d) then plane else before) u := by
  obtain ⟨-, range', depth', exist', rfl, -⟩ := Effect.getplane_iff.mp hget
  cases hset with
  | setplane grid range depth exist =>
    refine Effect.getplane_iff.mpr ⟨grid, range', depth', exist', ?_, rfl⟩
    have hd := depthInRange_iff.mp depth
    have hd' := depthInRange_iff.mp depth'
    have hplane := Memory.plane_setPlane s.planes (b := s.operandBlock bx byy) (b' := s.operandBlock bx' byy') plane
      (show (s32 d).toNat < 32 by omega) (show (s32 d').toNat < 32 by omega)
    have hsame : (bx', byy', d') = (bx, byy, d) ↔
        s.operandBlock bx' byy' = s.operandBlock bx byy ∧ (s32 d').toNat = (s32 d).toNat := by
      rw [State.operandBlock_inj range range', depthInRange_inj depth depth', Prod.mk.injEq, Prod.mk.injEq, and_assoc]
    exact (if_congr hsame rfl rfl).trans hplane.symm

/-- GETPLANE reads no response. -/
theorem Effect.getplane_after_respond (hget : Effect s (.getplane bx byy d) r s) (st : Status) (result : BitVec 64) :
    Effect (s.respond st result) (.getplane bx byy d) r (s.respond st result) :=
  hget.withPort (some ⟨st, result⟩) s.inputs

end Sys2Proof.Machine
end

