-- ==== Sys2Proof/Proofs/PlaneRules.lean ====
section
/-! PROOF. The statements of 42_bitplane.md. -/

namespace Sys2Proof.Machine

/-- Settles O37: the three checks in order, and then the plane word at the address of R35. -/
theorem getplaneReadsThePlane : Obligations.GetplaneReadsThePlane := by
  intro bx byy depth s
  refine ⟨exec_of_no_grid rfl, fun grid hout => ?_, fun grid hin hout => ?_, fun hinv grid hin hdepth => ?_⟩
  · exact exec_of_block_out_of_range rfl grid (mt State.blockInRange_iff.mp hout)
  · exact exec_of_depth_out_of_range rfl grid (State.blockInRange_iff.mpr hin) (mt depthInRange_iff.mp hout)
  · have range : s.blockInRange bx byy = true := State.blockInRange_iff.mpr hin
    exact exec_of_effect_self
      (.getplane grid range (depthInRange_iff.mpr hdepth) (hinv.operandBlock_le grid range))

/-- Settles O38: the three checks in order, and then one write of the storage. -/
theorem setplaneWritesThePlane : Obligations.SetplaneWritesThePlane := by
  intro bx byy depth plane s
  refine ⟨exec_of_no_grid rfl, fun grid hout => ?_, fun grid hin hout => ?_, fun hinv grid hin hdepth => ?_⟩
  · exact exec_of_block_out_of_range rfl grid (mt State.blockInRange_iff.mp hout)
  · exact exec_of_depth_out_of_range rfl grid (State.blockInRange_iff.mpr hin) (mt depthInRange_iff.mp hout)
  · have range : s.blockInRange bx byy = true := State.blockInRange_iff.mpr hin
    have effect := Effect.setplane (plane := plane) grid range (depthInRange_iff.mpr hdepth)
      (hinv.operandBlock_le grid range)
    exact ⟨_, exec_of_effect effect, rfl, fun a => Memory.read_setPlane ..⟩

/-- Settles O39: a SETPLANE that completes passed GETPLANE's checks, and stores where no other plane stands. -/
theorem planeWritesAreReadBack : Obligations.PlaneWritesAreReadBack := by
  intro bx byy d bx' byy' d' plane before s t _ ht hok
  obtain ⟨written, hset, rfl⟩ := exec_completed ht hok
  refine ⟨exec_getplane_answered_iff.mpr ?_, fun hne hbefore => exec_getplane_answered_iff.mpr ?_⟩
  · have hget := hset.getplane_after_setplane hset.getplane_of_setplane
    rw [if_pos rfl] at hget
    exact hget.getplane_after_respond .ok 0
  · have hget := hset.getplane_after_setplane (exec_getplane_answered_iff.mp hbefore)
    rw [if_neg hne] at hget
    exact hget.getplane_after_respond .ok 0

/-- Settles O36: both commands complete, and the plane GETPLANE reads is the one the pixel's bit stands in. -/
theorem planeAndPixelViewsAgree : Obligations.PlaneAndPixelViewsAgree := by
  intro x y bx byy depth s hinv grid hin hbx hby hdepth
  have range : s.inRange x y = true := State.inRange_iff.mpr hin
  have hblock : s.operandBlock bx byy = s.pixelBlock x y := State.operandBlock_eq_pixelBlock range hbx hby
  have hblockIn : 0 ≤ bx.toInt ∧ bx.toInt < s.cfgBw.toNat ∧ 0 ≤ byy.toInt ∧ byy.toInt < s.cfgBh.toNat := by omega
  obtain ⟨-, -, hgetcolor⟩ := getcolorReadsThePixel x y s
  obtain ⟨pixel, hpixel, hbits, -⟩ := hgetcolor hinv grid hin (s.pixelBlock x y) (pixelPosition x y) rfl rfl
  rw [← hblock] at hbits
  obtain ⟨-, -, -, hgetplane⟩ := getplaneReadsThePlane bx byy depth s
  exact ⟨pixel, _, hpixel, hgetplane hinv grid hblockIn hdepth, hbits _ (by omega)⟩

end Sys2Proof.Machine
end

