-- ==== Sys2Proof/Proofs/CodeTransform.lean ====
section
/-! PROOF. The two transforms of the grid (43_code_transform.md R86 to R91): that each undoes the other as data, and
what each makes of a pixel's 32-bit value. -/

namespace Sys2Proof.Machine

variable {s u : State} {x y : Word32} {v : Color} {r result : BitVec 64} {i : Instr} {m : Memory} {n b p : Nat}

/-! ### Each transform undoes the other (R91) -/

/-- The running XORs of the differences are the planes themselves. -/
theorem Memory.eachBlock_pbc_cgc (h : m.wf) (n : Nat) : eachBlock pbcBlock n (eachBlock cgcBlock n m) = m := by
  refine Memory.ext_plane h (Memory.wf_eachBlock_pbc (Memory.wf_eachBlock_cgc h n) n) fun b d hd => ?_
  rw [Memory.plane_eachBlock_pbc _ n b hd]
  split
  · next hb =>
    refine (xorUpTo_congr fun j hj => ?_).trans (xorUpTo_differences (m.plane b) d)
    simp [Memory.plane_eachBlock_cgc m n b (show j < 32 by omega), hb]
  · next hb => rw [Memory.plane_eachBlock_cgc m n b hd, if_neg fun h => hb h.1]

/-- The differences of the running XORs are the planes themselves. -/
theorem Memory.eachBlock_cgc_pbc (h : m.wf) (n : Nat) : eachBlock cgcBlock n (eachBlock pbcBlock n m) = m := by
  refine Memory.ext_plane h (Memory.wf_eachBlock_cgc (Memory.wf_eachBlock_pbc h n) n) fun b d hd => ?_
  rw [Memory.plane_eachBlock_cgc _ n b hd, Memory.plane_eachBlock_pbc m n b hd,
    Memory.plane_eachBlock_pbc m n b (show d - 1 < 32 by omega)]
  by_cases hb : b < n
  · by_cases h1 : 1 ≤ d
    · simp only [hb, h1, and_self, if_true, differences_xorUpTo]
    · obtain rfl : d = 0 := by omega
      simp [hb, xorUpTo]
  · simp only [hb, false_and, if_false]

/-! ### What a transform makes of a pixel's value (R90) -/

/-- The XOR of `v << k` over `k` below `n`. -/
def xorOfShifts (v : Color) (n : Nat) : Color := (List.range n).foldl (fun acc k => acc ^^^ (v <<< k)) 0

/-- One shift more, taken at the end of the fold. -/
theorem xorOfShifts_succ (v : Color) (n : Nat) : xorOfShifts v (n + 1) = xorOfShifts v n ^^^ (v <<< n) := by
  simp [xorOfShifts, List.range_succ]

/-- One shift more, taken at the front: the value, and every shift before it by one further. -/
theorem xorOfShifts_succ_front (v : Color) (n : Nat) : xorOfShifts v (n + 1) = v ^^^ (xorOfShifts v n <<< 1) := by
  induction n with
  | zero => simp [xorOfShifts]
  | succ n ih =>
    calc xorOfShifts v (n + 2)
        = v ^^^ (xorOfShifts v n <<< 1) ^^^ (v <<< n <<< 1) := by rw [xorOfShifts_succ, ih, BitVec.shiftLeft_add]
      _ = v ^^^ (xorOfShifts v (n + 1) <<< 1) := by
        rw [xorOfShifts_succ v n, BitVec.shiftLeft_xor_distrib, BitVec.xor_assoc]

/-- Bit `d` of a value and of itself shifted, XORed: the XOR of the bits `d` and `d - 1`. -/
theorem getLsbD_xor_shiftLeft_one (v w : Color) {d : Nat} (hd : d < 32) :
    (v ^^^ (w <<< 1)).getLsbD d = (v.getLsbD d ^^ (decide (1 ≤ d) && w.getLsbD (d - 1))) := by
  by_cases h1 : 1 ≤ d
  · simp [h1, hd, show d ≠ 0 by omega, BitVec.getLsbD_eq_getElem (show d - 1 < 32 by omega)]
  · obtain rfl : d = 0 := by omega
    simp

/-- If the planes `P` carry `v` at position `p`, their running XOR carries the XOR of the shifts of `v` there. -/
theorem getLsbD_xorUpTo {P : Nat → Plane} (hbits : ∀ j, j < 32 → (P j).getLsbD p = v.getLsbD j) {d : Nat}
    (hd : d < 32) (hn : d < n) : (xorUpTo P d).getLsbD p = (xorOfShifts v n).getLsbD d := by
  induction d generalizing n with
  | zero =>
    obtain ⟨n, rfl⟩ : ∃ k, n = k + 1 := ⟨n - 1, by omega⟩
    rw [xorOfShifts_succ_front, getLsbD_xor_shiftLeft_one _ _ hd, xorUpTo, hbits 0 hd]
    simp
  | succ d ih =>
    obtain ⟨n, rfl⟩ : ∃ k, n = k + 1 := ⟨n - 1, by omega⟩
    rw [xorOfShifts_succ_front, getLsbD_xor_shiftLeft_one _ _ hd, xorUpTo, BitVec.getLsbD_xor, hbits _ hd,
      ih (n := n) (by omega) (by omega)]
    simp [Bool.xor_comm]

/-- TOCGC XORs a pixel's value with itself shifted by one depth. -/
theorem Memory.blkGet_eachBlock_cgc (m : Memory) (hb : b < n) (p : Nat) :
    (eachBlock cgcBlock n m).blkGet b p = m.blkGet b p ^^^ (m.blkGet b p <<< 1) := by
  apply BitVec.eq_of_getLsbD_eq
  intro d hd
  rw [Memory.getLsbD_blkGet _ _ _ hd, Memory.plane_eachBlock_cgc m n b hd, getLsbD_xor_shiftLeft_one _ _ hd,
    Memory.getLsbD_blkGet _ _ _ hd, Memory.getLsbD_blkGet _ _ _ (show d - 1 < 32 by omega)]
  by_cases h1 : 1 ≤ d <;> simp [hb, h1]

/-- TOPBC XORs a pixel's value with its shifts by every number of depths. -/
theorem Memory.blkGet_eachBlock_pbc (m : Memory) (hb : b < n) (p : Nat) :
    (eachBlock pbcBlock n m).blkGet b p = xorOfShifts (m.blkGet b p) 32 := by
  apply BitVec.eq_of_getLsbD_eq
  intro d hd
  rw [Memory.getLsbD_blkGet _ _ _ hd, Memory.plane_eachBlock_pbc m n b hd, if_pos hb]
  exact getLsbD_xorUpTo (fun j hj => (Memory.getLsbD_blkGet m b p hj).symm) hd hd

theorem Effect.pixel_of_tocgc (h : Effect s .tocgc r u) (range : s.inRange x y = true) :
    u.pixel x y = s.pixel x y ^^^ (s.pixel x y <<< 1) := by
  cases h
  exact Memory.blkGet_eachBlock_cgc _ (State.pixelBlock_lt range) _

theorem Effect.pixel_of_topbc (h : Effect s .topbc r u) (range : s.inRange x y = true) :
    u.pixel x y = xorOfShifts (s.pixel x y) 32 := by
  cases h
  exact Memory.blkGet_eachBlock_pbc _ (State.pixelBlock_lt range) _

/-! ### GETCOLOR after a transform -/

/-- After any effect GETCOLOR answers what the pixel then holds. -/
theorem Effect.getcolor_after (hget : Effect s (.getcolor x y) r s) (h : Effect s i result u) :
    Effect u (.getcolor x y) ((u.pixel x y).zeroExtend 64) u := by
  obtain ⟨grid, range, exist, -, -⟩ := Effect.getcolor_iff.mp hget
  obtain ⟨hc, hbw, hbh⟩ := h.keeps_grid grid
  obtain ⟨-, -, hcap⟩ := h.untouched
  refine Effect.getcolor_iff.mpr ⟨hc, (State.inRange_congr hbw hbh).trans range, ?_, rfl, rfl⟩
  rwa [State.pixelBlock_congr hbw, hcap]

/-- RESULT determines the pixel value it carries. -/
theorem color_eq_of_zeroExtend_eq {v w : Color} (h : v.zeroExtend 64 = w.zeroExtend 64) : v = w := by
  apply BitVec.eq_of_getLsbD_eq
  intro d _
  rw [← getLsbD_zeroExtend_color v, h, getLsbD_zeroExtend_color]

/-- A command whose effect makes a pixel's value a function `f` of what it was does so to what GETCOLOR answers. -/
theorem exec_maps_pixel {f : Color → Color} (hinv : s.Inv)
    (hread : exec (.getcolor x y) s = .next (s.answered (v.zeroExtend 64)))
    (effect : s.configured = true → Effect s i 0 u)
    (hpixel : Effect s i 0 u → s.inRange x y = true → u.pixel x y = f (s.pixel x y)) :
    ∃ t, t.Inv ∧ exec i s = .next t ∧ exec (.getcolor x y) t = .next (t.answered ((f v).zeroExtend 64)) := by
  have hget := exec_getcolor_answered_iff.mp hread
  obtain ⟨grid, range, -, hv, -⟩ := Effect.getcolor_iff.mp hget
  have hafter := (hget.getcolor_after (effect grid)).getcolor_after_respond .ok 0
  rw [hpixel (effect grid) range, ← color_eq_of_zeroExtend_eq hv] at hafter
  exact ⟨_, ((effect grid).keeps_inv hinv).withResponse .ok 0, exec_of_effect (effect grid),
    exec_getcolor_answered_iff.mpr hafter⟩

theorem exec_tocgc_maps_pixel (hinv : s.Inv)
    (hread : exec (.getcolor x y) s = .next (s.answered (v.zeroExtend 64))) :
    ∃ t, t.Inv ∧ exec .tocgc s = .next t ∧
      exec (.getcolor x y) t = .next (t.answered ((v ^^^ (v <<< 1)).zeroExtend 64)) :=
  exec_maps_pixel (f := fun v => v ^^^ (v <<< 1)) hinv hread
    (fun grid => .tocgc grid (hinv.nblk_le grid)) Effect.pixel_of_tocgc

theorem exec_topbc_maps_pixel (hinv : s.Inv)
    (hread : exec (.getcolor x y) s = .next (s.answered (v.zeroExtend 64))) :
    ∃ t, t.Inv ∧ exec .topbc s = .next t ∧
      exec (.getcolor x y) t = .next (t.answered ((xorOfShifts v 32).zeroExtend 64)) :=
  exec_maps_pixel (f := (xorOfShifts · 32)) hinv hread
    (fun grid => .topbc grid (hinv.nblk_le grid)) Effect.pixel_of_topbc

end Sys2Proof.Machine
end

