-- ==== Sys2Proof/Proofs/TransformRules.lean ====
section
/-! PROOF. The statements of 43_code_transform.md. -/

namespace Sys2Proof.Machine

/-- Settles O40: the forward cascade's planes in every block of the grid, and no write past it. -/
theorem tocgcRunsTheForwardCascade : Obligations.TocgcRunsTheForwardCascade := by
  intro s
  refine ⟨exec_of_no_grid rfl, fun hinv grid => ?_⟩
  have effect := Effect.tocgc grid (hinv.nblk_le grid)
  refine ⟨_, exec_of_effect effect, rfl, fun b hb => ⟨?_, fun d h1 h31 => ?_⟩,
    fun a ha => effect.keeps_planes_outside ha⟩
  · exact (Memory.plane_eachBlock_cgc s.planes s.nblk b (by decide)).trans (if_neg (by simp))
  · exact (Memory.plane_eachBlock_cgc s.planes s.nblk b (by omega)).trans (if_pos ⟨hb, h1⟩)

/-- Settles O41: every plane of the grid becomes the running XOR, which is its plane XOR the running XOR below it. -/
theorem topbcRunsTheInverseCascade : Obligations.TopbcRunsTheInverseCascade := by
  intro s
  refine ⟨exec_of_no_grid rfl, fun hinv grid => ?_⟩
  have effect := Effect.topbc grid (hinv.nblk_le grid)
  refine ⟨_, exec_of_effect effect, rfl, fun b hb => ?_, fun a ha => effect.keeps_planes_outside ha⟩
  have restored {d : Nat} (hd : d < 32) :
      (Memory.eachBlock Memory.pbcBlock s.nblk s.planes).plane b d = xorUpTo (s.planes.plane b) d :=
    (Memory.plane_eachBlock_pbc s.planes s.nblk b hd).trans (if_pos hb)
  refine ⟨restored (by decide), fun d h1 h31 => ?_⟩
  obtain ⟨d, rfl⟩ : ∃ k, d = k + 1 := ⟨d - 1, by omega⟩
  calc (Memory.eachBlock Memory.pbcBlock s.nblk s.planes).plane b (d + 1)
      = xorUpTo (s.planes.plane b) d ^^^ s.planes.plane b (d + 1) := restored (by omega)
    _ = s.planes.plane b (d + 1) ^^^ xorUpTo (s.planes.plane b) d := BitVec.xor_comm ..
    _ = s.planes.plane b (d + 1) ^^^ (Memory.eachBlock Memory.pbcBlock s.nblk s.planes).plane b d := by
      rw [restored (by omega)]

/-- Settles O42: on a canonical storage each cascade undoes the other as data. -/
theorem transformsAreInverse : Obligations.TransformsAreInverse := by
  intro s hinv grid
  have exist := hinv.nblk_le grid
  exact
    ⟨⟨_, _, exec_of_effect (.tocgc grid exist), exec_of_effect (.topbc grid exist),
        Memory.eachBlock_pbc_cgc hinv.canonical s.nblk, rfl⟩,
      ⟨_, _, exec_of_effect (.topbc grid exist), exec_of_effect (.tocgc grid exist),
        Memory.eachBlock_cgc_pbc hinv.canonical s.nblk, rfl⟩⟩

/-- Settles O43: the plane cascades, read along the 32 depths of one pixel. -/
theorem transformsActPixelByPixel : Obligations.TransformsActPixelByPixel := by
  intro x y v s hinv hread
  obtain ⟨t, -, ht, hcgc⟩ := exec_tocgc_maps_pixel hinv hread
  obtain ⟨u, -, hu, hpbc⟩ := exec_topbc_maps_pixel hinv hread
  exact ⟨⟨t, ht, hcgc⟩, ⟨u, hu, hpbc⟩⟩

/-- Settles O44: R90's formulas twice, on the rule's two values; what they come to is evaluated. -/
theorem neitherTransformIsSelfInverse : Obligations.NeitherTransformIsSelfInverse := by
  intro x y s hinv
  refine ⟨fun hread => ?_, fun hread => ?_⟩
  · obtain ⟨t, hinvt, ht, hreadt⟩ := exec_tocgc_maps_pixel (v := 4) hinv hread
    obtain ⟨u, -, hu, hreadu⟩ := exec_tocgc_maps_pixel hinvt hreadt
    exact ⟨t, u, ht, hreadt, hu, hreadu⟩
  · obtain ⟨t, hinvt, ht, hreadt⟩ := exec_topbc_maps_pixel (v := 1) hinv hread
    obtain ⟨u, -, hu, hreadu⟩ := exec_topbc_maps_pixel hinvt hreadt
    exact ⟨t, u, ht, hreadt, hu, hreadu⟩

end Sys2Proof.Machine
end

