-- ==== Sys2Proof/Proofs/StatusRules.lean ====
section
/-! PROOF. The statements of 44_status.md, from the layout of `STATUSWORD` (10_state.md R23). -/

namespace Sys2Proof.Machine

/-- `MODE` as one bit is 1 exactly in the cumulative code. -/
theorem CodingMode.bit_eq_ofBool (m : CodingMode) : m.bit = BitVec.ofBool (decide (m = .cgc)) := by
  cases m <;> rfl

/-! ### The layout of STATUSWORD -/

/-- The view with its 8-bit part at the width of its five fields, so that `BitVec.getLsbD_append` takes it apart. -/
theorem State.statusWord_eq_setWidth (s : State) : s.statusWord =
    (s.errcode ++ 0#1 ++ BitVec.ofBool s.err ++ s.mode.bit ++ BitVec.ofBool s.configured).setWidth 64 := rfl

/-- R23, bit by bit. -/
theorem State.getLsbD_statusWord (s : State) (i : Nat) : s.statusWord.getLsbD i =
    if i = 0 then s.configured
    else if i = 1 then decide (s.mode = .cgc)
    else if i = 2 then s.err
    else if i = 3 then false
    else s.errcode.getLsbD (i - 4) := by
  simp only [State.statusWord_eq_setWidth, BitVec.getLsbD_setWidth, BitVec.getLsbD_append, CodingMode.bit_eq_ofBool]
  match i with
  | 0 | 1 | 2 | 3 => simp
  | k + 4 =>
    have inWord : s.errcode.getLsbD k = true → k + 4 < 64 := fun h => by
      have := BitVec.lt_of_getLsbD h
      omega
    simpa using inWord

/-- Past the four single bits stands ERRCODE, and 0 past its own four. -/
theorem State.getLsbD_statusWord_add_four (s : State) (k : Nat) :
    s.statusWord.getLsbD (k + 4) = s.errcode.getLsbD k := by
  simp [State.getLsbD_statusWord]

theorem State.extractLsb'_statusWord_errcode (s : State) : s.statusWord.extractLsb' 4 4 = s.errcode := by
  apply BitVec.eq_of_getLsbD_eq
  intro k hk
  rw [BitVec.getLsbD_extractLsb', Nat.add_comm, State.getLsbD_statusWord_add_four, decide_eq_true hk, Bool.true_and]

theorem State.extractLsb'_statusWord_high (s : State) : s.statusWord.extractLsb' 8 56 = 0 := by
  apply BitVec.eq_of_getLsbD_eq
  intro k _
  have past : s.errcode.getLsbD (k + 4) = false := BitVec.getLsbD_of_ge _ _ (by omega)
  rw [BitVec.getLsbD_extractLsb', show 8 + k = k + 4 + 4 by omega, State.getLsbD_statusWord_add_four, past,
    Bool.and_false]
  exact BitVec.getLsbD_zero.symm

/-! ### The two commands -/

/-- Settles O45: RDSTAT has its effect in every state, and its result is the status word, field by field. -/
theorem rdstatReadsTheStatusWord : Obligations.RdstatReadsTheStatusWord := fun s =>
  ⟨s.statusWord, exec_of_effect .rdstat, s.getLsbD_statusWord 0, s.getLsbD_statusWord 1, s.getLsbD_statusWord 2,
    s.getLsbD_statusWord 3, s.extractLsb'_statusWord_errcode, s.extractLsb'_statusWord_high⟩

/-- Settles O46: CLRERR has its effect in every state, and that is the record cleared. -/
theorem clrerrClearsTheRecord : Obligations.ClrerrClearsTheRecord := fun _ => exec_of_effect .clrerr

end Sys2Proof.Machine
end

