-- ==== Sys2Proof/Proofs/ExceptionRules.lean ====
section
/-! PROOF. The statements of 60_exceptions.md, each from what a performed command can do: be rejected, by the first of
its checks that fails, or have its effect and answer `OK`. -/

namespace Sys2Proof.Machine

variable {s t u : State} {i : Instr} {r : BitVec 64}

/-! ### The status a command answers with -/

/-- A command that has its effect fails none of its checks (60_exceptions.md R103). -/
theorem Effect.firstFailing_eq_ok (h : Effect s i r u) : firstFailing (checksOf i s) = .ok := by
  cases hfirst : firstFailing (checksOf i s) with
  | ok => rfl
  | rejected e =>
    have clash : Host.Outcome.next (u.respond .ok r) = .next (s.rejectedWith e) :=
      (exec_of_effect h).symm.trans (exec_of_firstFailing hfirst)
    cases congrArg State.inProgress (Host.Outcome.next.inj clash)

theorem exec_status (h : exec i s = .next t) :
    ∃ result, t.inProgress = some ⟨firstFailing (checksOf i s), result⟩ := by
  rcases exec_rejects_or_completes h with ⟨e, hrejects, rfl⟩ | ⟨r, u, hu, rfl⟩
  · rw [(exec_decidedBy i s e).mp hrejects]
    exact ⟨0, rfl⟩
  · rw [hu.firstFailing_eq_ok]
    exact ⟨r, rfl⟩

/-- Settles O14: under the invariant every command answers, with the status of its checks; a command that does not decode
meets none of them. -/
theorem statusFollowsTheCheckOrder : Obligations.StatusFollowsTheCheckOrder := by
  refine ⟨fun i s hinv => ?_, fun c why s hd => perform_of_decode_error hd s⟩
  obtain ⟨t, ht⟩ := exec_answers hinv i
  obtain ⟨result, hstatus⟩ := exec_status ht
  exact ⟨t, result, ht, hstatus⟩

/-! ### The error record -/

/-- Settles O12: of the two ways a performed command answers, one is a rejection, whose response names its code. -/
theorem rejectionWritesOnlyTheErrorRecord : Obligations.RejectionWritesOnlyTheErrorRecord := by
  intro c s t e result hp hrejected
  rcases perform_cases hp with ⟨e', rfl⟩ | ⟨i, r, u, -, -, rfl⟩
  · cases hrejected
    rfl
  · cases hrejected

/-- No effect but CLRERR's writes the error record (60_exceptions.md R104). -/
theorem Effect.keeps_record (h : Effect s i r u) (hclear : i ≠ .clrerr) : u.err = s.err ∧ u.errcode = s.errcode := by
  cases h with
  | clrerr => exact absurd rfl hclear
  | _ => exact ⟨rfl, rfl⟩

/-- Settles O13: a command that completes had its effect, and setting its response writes no record. -/
theorem successKeepsTheErrorRecord : Obligations.SuccessKeepsTheErrorRecord := by
  intro i s t result h hok hclear
  obtain ⟨u, hu, rfl⟩ := exec_completed h hok
  exact hu.keeps_record hclear

/-! ### The codes, and the idle unit -/

/-- Settles O11: the codes are the model's by definition. -/
theorem statusCodeValues : Obligations.StatusCodeValues := ⟨rfl, rfl, rfl, rfl, rfl, rfl, rfl, rfl⟩

/-- Settles O7: with no input a step delivers, and with no command in progress there is nothing to deliver. -/
theorem idleUnitKeepsItsState : Obligations.IdleUnitKeepsItsState := by
  intro s hin hidle
  rw [step_of_no_input hin, State.deliver_of_none hidle]

end Sys2Proof.Machine
end

