-- ==== Sys2Proof/Proofs/Port.lean ====
section
/-! PROOF. The port, edge by edge (70_reset_and_hazards.md R116, R117, R121, R123): what each edge does, what the unit
drives in each cycle, and the edges from the acceptance of a command to the delivery of its response. -/

namespace Sys2Proof.Machine

variable {p q : Port} {pins : Pins} {later : List Pins} {u : State} {r : Response} {left cycle : Nat}

/-! ### What the unit drives in a cycle -/

theorem Port.outputs_of_rst (p : Port) :
    p.outputs true = ⟨false, false, Config.idleStatus p.cycle, Config.idleResult p.cycle⟩ := rfl

theorem Port.outputs_of_idle (h : p.unit.inProgress = none) :
    p.outputs false = ⟨true, false, Config.idleStatus p.cycle, Config.idleResult p.cycle⟩ := by
  simp only [Port.outputs, h]

theorem Port.outputs_of_inProgress (h : p.unit.inProgress = some r) :
    p.outputs false = if p.left = 0 then ⟨false, true, r.status.code, r.result⟩
      else ⟨false, false, Config.idleStatus p.cycle, Config.idleResult p.cycle⟩ := by
  simp only [Port.outputs, h]

theorem Port.cmdReady_of_inProgress (h : p.unit.inProgress = some r) : (p.outputs false).cmdReady = false := by
  rw [Port.outputs_of_inProgress h]
  split <;> rfl

/-- The response is on the port in the cycle in which none is left to wait, and in no other (R123). -/
theorem Port.rspValid_of_inProgress (h : p.unit.inProgress = some r) :
    (p.outputs false).rspValid = true ↔ p.left = 0 := by
  rw [Port.outputs_of_inProgress h]
  split <;> simp_all

/-! ### What an edge does -/

theorem Port.edge_of_rst (h : pins.rst = true) (p : Port) :
    p.edge pins = .next ⟨p.unit.resetEdge, 0, p.cycle + 1⟩ := by simp only [Port.edge, h]

/-- An edge at which an idle unit accepts the command on the pins (R121). -/
theorem Port.edge_of_accept {c : Command} (hidle : p.unit.inProgress = none) (hu : perform c p.unit = .next u) :
    p.edge ⟨false, true, c⟩ = .next ⟨u, latency c u.nblk, p.cycle + 1⟩ := by
  simp [Port.edge, hidle, Port.accept, hu]

theorem Port.edge_of_wait (hrst : pins.rst = false) (hr : u.inProgress = some r) :
    Port.edge pins ⟨u, left + 1, cycle⟩ = .next ⟨u, left, cycle + 1⟩ := by simp [Port.edge, hrst, hr]

theorem Port.edge_of_response (hrst : pins.rst = false) (hr : u.inProgress = some r) :
    Port.edge pins ⟨u, 0, cycle⟩ = .next ⟨u.deliver, 0, cycle + 1⟩ := by simp [Port.edge, hrst, hr]

/-! ### Runs of edges -/

theorem Port.run_cons (h : p.edge pins = .next q) : Port.run (pins :: later) p = Port.run later q := by
  simp only [Port.run, h]

/-- Edges without reset count the wait down and change nothing else, whatever is on the other pins. -/
theorem Port.run_waits (hr : u.inProgress = some r) (hrst : ∀ pins ∈ later, pins.rst = false)
    (hlen : later.length ≤ left) :
    Port.run later ⟨u, left, cycle⟩ = .next ⟨u, left - later.length, cycle + later.length⟩ := by
  induction later generalizing left cycle with
  | nil => rfl
  | cons pins later ih =>
    obtain ⟨hfirst, hrest⟩ := List.forall_mem_cons.mp hrst
    obtain ⟨left, rfl⟩ : ∃ n, left = n + 1 := ⟨left - 1, by simp at hlen; omega⟩
    rw [Port.run_cons (Port.edge_of_wait hfirst hr), ih hrest (by simpa using hlen), List.length_cons,
      Nat.add_sub_add_right, Nat.add_assoc, Nat.add_comm 1]

/-- One edge more than the wait delivers the response (R121). -/
theorem Port.run_delivers (hr : u.inProgress = some r) (hrst : ∀ pins ∈ later, pins.rst = false)
    (hlen : later.length = left + 1) :
    Port.run later ⟨u, left, cycle⟩ = .next ⟨u.deliver, 0, cycle + left + 1⟩ := by
  induction left generalizing later cycle with
  | zero =>
    obtain ⟨pins, rfl⟩ := List.length_eq_one_iff.mp hlen
    exact Port.run_cons (Port.edge_of_response (hrst pins List.mem_cons_self) hr)
  | succ left ih =>
    obtain ⟨pins, later, rfl⟩ := List.exists_cons_of_length_eq_add_one hlen
    obtain ⟨hfirst, hrest⟩ := List.forall_mem_cons.mp hrst
    rw [Port.run_cons (Port.edge_of_wait hfirst hr), ih hrest (by simpa using hlen), Nat.add_assoc cycle,
      Nat.add_comm 1]

/-! ### The step the port refines -/

/-- The step of a unit to which the host presents a command performs it and delivers its response. -/
theorem step_present {s : State} {c : Command} (hidle : s.inProgress = none) (hu : perform c s = .next u) :
    step (s.present c) = .next u.deliver := by
  have accepted : { s.present c with inputs := s.inputs } = s := by simp only [State.present, ← hidle]
  rw [step_of_command (State.present_inProgress c s) (State.present_inputs c s), accepted, hu, Result.map_next]

end Sys2Proof.Machine
end

