-- ==== Sys2Proof/Proofs/ResetAndHazardRules.lean ====
section
/-! PROOF. The statements of 70_reset_and_hazards.md, on the step and on the port. -/

namespace Sys2Proof.Machine

/-! ### Commands and their responses -/

/-- Settles O5: the step delivers the response the performed command leaves, and performing touches neither the other
inputs nor the responses before. -/
theorem eachCommandIsAnsweredOnce : Obligations.EachCommandIsAnsweredOnce := by
  intro s t c rest hidle hin ht
  rw [step_of_command hidle hin, Result.map_eq_next] at ht
  obtain ⟨u, hu, rfl⟩ := ht
  obtain ⟨r, hr⟩ := perform_responds hu
  obtain ⟨hinputs, hresponses, -⟩ := perform_untouched hu
  refine ⟨u.deliver_inputs.trans hinputs, u.deliver_inProgress, u, r, hu, hr, ?_⟩
  rw [State.deliver_of_some hr, hresponses]

/-- Settles O18, by induction on the commands waiting: under the invariant each step answers, with one response. -/
theorem runAnswersEveryCommand : Obligations.RunAnswersEveryCommand := by
  intro cs
  induction cs with
  | nil => exact fun s _ hs => ⟨s, [], rfl, hs, (List.append_nil _).symm, rfl⟩
  | cons c cs ih =>
    rintro s hinv ⟨hidle, hin⟩
    obtain ⟨v, hv⟩ := step_answers hinv
    obtain ⟨hrest, hended, -, r, -, -, hfirst⟩ := eachCommandIsAnsweredOnce s v c _ hidle hin hv
    obtain ⟨t, rs, hrun, hwaiting, hothers, hcount⟩ := ih v (step_keeps_inv hv hinv) ⟨hended, hrest⟩
    refine ⟨t, r :: rs, ?_, hwaiting, ?_, congrArg Nat.succ hcount⟩
    · rw [List.length_cons, run_succ, hv]
      exact hrun
    · rw [hothers, hfirst, List.append_assoc]
      rfl

/-! ### Reset -/

/-- Settles O9: a reset input is a reset edge, which writes the elements of R116 and no other. -/
theorem resetInputResets : Obligations.ResetInputResets := fun _ _ hin => step_of_reset hin

/-- Settles O10: both ways end in a reset edge, which delivers nothing; under the invariant the command that is cut does
not stop the unit before it. -/
theorem resetAbandonsTheCommandInProgress : Obligations.ResetAbandonsTheCommandInProgress := by
  refine ⟨fun s rest r _ hin => ⟨_, step_of_reset hin, rfl, rfl, rfl⟩, fun s c rest hinv hidle hin => ?_⟩
  obtain ⟨u, hu⟩ := perform_answers (hinv.withInputs rest) c
  obtain ⟨hinputs, hresponses, -⟩ := perform_untouched hu
  have hstep : step s = .next u.resetEdge := by rw [step_of_cut hidle hin, hu, Result.map_next]
  exact ⟨_, hstep, hresponses, hinputs, rfl, rfl, rfl, rfl, rfl, rfl, rfl⟩

/-! ### The port -/

/-- Settles O50, by cases on `rst` and on the command in progress. -/
theorem readyExactlyWhenIdle : Obligations.ReadyExactlyWhenIdle := by
  intro rst p
  cases rst with
  | true => simp [Port.outputs_of_rst]
  | false =>
    cases hp : p.unit.inProgress with
    | none => simp [Port.outputs_of_idle hp]
    | some r => simp [Port.cmdReady_of_inProgress hp]

/-- Settles O51: an edge with `rst = 1` is a reset edge of the unit. -/
theorem portResetAbandons : Obligations.PortResetAbandons := fun _ p hrst =>
  ⟨rfl, rfl, _, Port.edge_of_rst hrst p, rfl⟩

/-- Settles O52: the acceptance edge changes the state, each later edge counts the wait down, and the last delivers. -/
theorem portRefinesTheStep : Obligations.PortRefinesTheStep := by
  intro p c u r later lat hidle hu hr hlat hlen hrst
  have accepted (more : List Pins) :
      Port.run (⟨false, true, c⟩ :: more) p = Port.run more ⟨u, lat, p.cycle + 1⟩ := by
    rw [Port.run_cons (Port.edge_of_accept hidle hu), hlat]
  refine ⟨hlat ▸ one_le_latency c u.nblk, ?_, fun k hk => ?_⟩
  · exact ⟨_, (accepted later).trans (Port.run_delivers hr hrst hlen), step_present hidle hu⟩
  · have hcount : (later.take k).length = k := List.length_take_of_le (by omega)
    have waits := Port.run_waits (cycle := p.cycle + 1) hr (fun pins h => hrst pins (List.mem_of_mem_take h))
      (hcount.trans_le hk)
    rw [hcount] at waits
    refine ⟨_, (accepted _).trans waits, Port.cmdReady_of_inProgress hr, ?_, fun hlast => ?_⟩
    · rw [Port.rspValid_of_inProgress hr]
      exact ⟨fun h => Nat.le_antisymm hk (Nat.sub_eq_zero_iff_le.mp h), fun h => by simp [h]⟩
    · rw [Port.outputs_of_inProgress hr, if_pos (Nat.sub_eq_zero_of_le hlast.ge)]
      exact ⟨rfl, rfl⟩

end Sys2Proof.Machine
end
